-- ==== Sys2Proof/Word.lean ====
section
/-! DEFINITION. The bit-vector types of the MQFE: host register words (00_scope.md R9, R10), bytes, nibbles, and the
28-bit remaining-length domain (R9). Every operation of the MQFE is unsigned (R10). -/

namespace Sys2Proof

/-- A host register, a transport length, count or error code, or a timeout: 32 bits (R9). -/
abbrev Word := BitVec 32

/-- One byte of the wire, of BUF, or of a header (R67, R87). -/
abbrev Byte := BitVec 8

/-- A packet type or a flags field (R87), an opcode (R80) or an error code (R25): 4 bits. -/
abbrev Nibble := BitVec 4

/-- A remaining length, 0 .. 2^28-1 (R9), and the decoder's accumulator (R38, R110). -/
abbrev RemLen := BitVec 28

/-- The small counts of R32 and R38: 0..5, held in 3 bits. -/
abbrev Count := BitVec 3

end Sys2Proof
end

