-- ==== Sys2Proof/Syntax.lean ====
section
/-! DEFINITION. The command set: one constructor per row of spec/opcode_table.json (30_encoding.md R82). No command has
an operand in its word (R83, R84): every operand is a register read at the CMD write. -/

namespace Sys2Proof

/-- The six commands of the MQFE (R82). -/
inductive Instr where
  | lenDecode   -- LEN_DECODE,  40_varlen_codec.md R120
  | lenEncode   -- LEN_ENCODE,  40_varlen_codec.md R125
  | hdrUnpack   -- HDR_UNPACK,  41_header_codec.md R145
  | hdrPack     -- HDR_PACK,    41_header_codec.md R148
  | readPacket  -- READ_PACKET, 42_packet_framer.md R170
  | sendPacket  -- SEND_PACKET, 42_packet_framer.md R185
deriving DecidableEq, Repr

end Sys2Proof
end

