-- ==== Sys2Proof/WellFormed.lean ====
section
/-! DEFINITION. What is well formed. A command has no operand, so every `Instr` is well formed; the checks with content
are those on a CMD32 word (30_encoding.md R80, R81, R85). The checks on a host access and on a transport answer stand
beside their types in Machine/Ports.lean, the check on the configuration in Config.lean. -/

namespace Sys2Proof

/-- CMD32 bits [3:0], OPCODE (R80). -/
def Cmd32.opcode (w : Word) : Nibble := w.extractLsb' 0 4

/-- CMD32 bits [31:4], RSVD (R80). -/
def Cmd32.rsvd (w : Word) : BitVec 28 := w.extractLsb' 4 28

/-- R80: RSVD must be 0. -/
def Cmd32.rsvdZero (w : Word) : Bool := Cmd32.rsvd w == 0

/-- R82: the assigned opcodes are 0x1 .. 0x6. -/
def Cmd32.opcodeAssigned (w : Word) : Bool := 1 ≤ (Cmd32.opcode w).toNat && (Cmd32.opcode w).toNat ≤ 6

/-- R81: a legal command word. -/
def Cmd32.wf (w : Word) : Bool := Cmd32.rsvdZero w && Cmd32.opcodeAssigned w

/-- R83, R84: a command has no operand in its word, so there is nothing to check. -/
def Instr.wf : Instr → Bool
  | .lenDecode | .lenEncode | .hdrUnpack | .hdrPack | .readPacket | .sendPacket => true

end Sys2Proof
end

