-- ==== Sys2Proof/Decode.lean ====
section
/-! DEFINITION. Decoding a CMD32 word, and the encoder (30_encoding.md R80 to R86). A command is one 32-bit register
write, so its word is a value on the host port, never bytes in a memory. -/

namespace Sys2Proof

/-- Why a word is no command (R85). Both kinds complete with ILLEGAL_COMMAND. -/
inductive DecodeError where
  /-- Bits [31:4] are not all 0. -/
  | reservedBits
  /-- Bits [31:4] are 0 and OPCODE is 0x0 or 0x7..0xF. -/
  | reservedOpcode
deriving DecidableEq, Repr

/-- CMD32: RSVD is bits [31:4] and OPCODE bits [3:0] (R80). Total over all 2^32 words (R86). -/
def decode (w : Word) : Except DecodeError Instr :=
  if w.extractLsb' 4 28 ≠ 0 then .error .reservedBits
  else
    match w.extractLsb' 0 4 with
    | 0x1#4 => .ok .lenDecode
    | 0x2#4 => .ok .lenEncode
    | 0x3#4 => .ok .hdrUnpack
    | 0x4#4 => .ok .hdrPack
    | 0x5#4 => .ok .readPacket
    | 0x6#4 => .ok .sendPacket
    | _ => .error .reservedOpcode

/-- The opcode map (R82, first column). -/
def Instr.opcode : Instr → Nibble
  | .lenDecode => 0x1
  | .lenEncode => 0x2
  | .hdrUnpack => 0x3
  | .hdrPack => 0x4
  | .readPacket => 0x5
  | .sendPacket => 0x6

/-- The CMD32 word of a command: RSVD = 0 above OPCODE (R80). -/
def encode (i : Instr) : Word := (0 : BitVec 28) ++ i.opcode

/-- The instruction the decoder reads from a word numbered as spec/opcode_table.json numbers it: bits at and above
`nbits` are 0. -/
def decodeTableWord (nbits w : Nat) : Option Instr :=
  match decode (BitVec.ofNat 32 (w % 2 ^ nbits)) with
  | .ok i => some i
  | .error _ => none

end Sys2Proof
end

