-- ==== Sys2Proof/Config.lean ====
section
/-! DEFINITION. What a platform fixes: the size of the packet buffer, and where the register space and BUF appear in the
Host's address space (00_scope.md R9, 20_memory.md R77, 93_implementation_defined.md I14). They are OPEN parameters of the
spec, so they are plain data that State carries and no step changes: a statement for every state is a statement for every
value of them. -/

namespace Sys2Proof

/-- The parameters of one MQFE (I14). -/
structure Config where
  /-- `BUF_SIZE`, bytes of packet-buffer storage, 1 .. 2^32-1 (R9, D11). -/
  bufSize : Word
  /-- `REG_BASE`, the address at which the Host sees register offset 0 (R77). The spec gives it no width (log 15). -/
  regBase : Nat
  /-- `BUF_BASE`, the address at which the Host sees BUF[0] (R77). The spec gives it no width (log 15). -/
  bufBase : Nat
deriving DecidableEq, Repr

/-- R9: 1 ≤ BUF_SIZE (the upper bound 2^32-1 is the width of the field). R77 puts no bound on the bases. -/
def Config.wf (c : Config) : Bool := c.bufSize != 0

/-- The configuration State.reset carries: BUF_SIZE = 1024, the least size for which 95_test_vectors.md states its
vectors (log 1); REG_BASE = 0 and BUF_BASE = 256, BUF right above the register space (log 15). DESIGN CHOICE, unsafe to
lean on: no statement may use these numbers. -/
def Config.chosen : Config := { bufSize := 1024, regBase := 0, bufBase := 256 }

end Sys2Proof
end

