-- ==== Sys2Proof/Machine/Ports.lean ====
section
/-! DEFINITION. What crosses the MQFE's ports: transport requests and answers (30_encoding.md R90, R91), host accesses
(R94), whose turn it is among the agents (00_scope.md R7), and the record of what the block sent out. -/

namespace Sys2Proof.Machine

/-- DIR of a transport request (R90). -/
inductive Dir where
  | read
  | write
deriving DecidableEq, Repr

/-- The DIR bit: 0 = read, 1 = write (R90). -/
def Dir.bit : Dir → BitVec 1
  | .read => 0
  | .write => 1

/-- A transport request (R90): the `req` record of 10_state.md R38 with the bytes a write sends. -/
structure Request where
  dir : Dir
  n : Word
  timeout : Word
  wdata : List Byte
deriving DecidableEq, Repr

/-- ST of a transport answer (R91). -/
inductive AnswerStatus where
  | ok
  | err
  | tmo
  | cls
deriving DecidableEq, Repr

/-- The ST field: 0 = OK, 1 = ERR, 2 = TMO, 3 = CLS (R91). -/
def AnswerStatus.ofBits : BitVec 2 → AnswerStatus
  | 0#2 => .ok
  | 1#2 => .err
  | 2#2 => .tmo
  | 3#2 => .cls

/-- A transport answer (R91). Fields that `st` does not use are ignored. -/
structure Answer where
  st : AnswerStatus
  /-- OK only: bytes read or written. -/
  n : Word
  /-- ERR only: the transport's own code. -/
  code : Word
  /-- OK answer to a read only: the bytes read. -/
  rdata : List Byte
deriving DecidableEq, Repr

/-- `OK(n, bytes)`: the answer to a read that delivers these bytes. -/
def Answer.okBytes (bs : List Byte) : Answer := ⟨.ok, BitVec.ofNat 32 bs.length, 0, bs⟩
/-- `OK(n)`: the answer to a write. -/
def Answer.okCount (n : Word) : Answer := ⟨.ok, n, 0, []⟩
/-- `ERR(code)`. -/
def Answer.err (c : Word) : Answer := ⟨.err, 0, c, []⟩
/-- `TMO`. -/
def Answer.tmo : Answer := ⟨.tmo, 0, 0, []⟩
/-- `CLS`. -/
def Answer.cls : Answer := ⟨.cls, 0, 0, []⟩

/-- R91: an OK answer to a read carries exactly N bytes. Any other shape is outside the port encoding (log 8). -/
def Answer.wf (d : Dir) (a : Answer) : Bool :=
  match d, a.st with
  | .read, .ok => a.rdata.length == a.n.toNat
  | _, _ => true

/-- One host access (R94). A register access carries its size in bytes, so that the forms R64 gives no behaviour can be
written down and refused. BUF accesses are single bytes (R65); their address has no width in the spec (log 15). An access
names an offset or a BUF address, as R94 encodes it; `HostAccess.addr` is its place in the Host's address space. -/
inductive HostAccess where
  | regRead (off : BitVec 8) (size : Nat)
  | regWrite (off : BitVec 8) (size : Nat) (v : Word)
  | bufRead (a : Nat)
  | bufWrite (a : Nat) (b : Byte)
deriving DecidableEq, Repr

/-- R64: a register access is 32 bits wide and aligned to a multiple of 4. -/
def HostAccess.wf : HostAccess → Bool
  | .regRead off size => size == 4 && off.toNat % 4 == 0
  | .regWrite off size _ => size == 4 && off.toNat % 4 == 0
  | .bufRead _ => true
  | .bufWrite _ _ => true

/-- Whose turn it is (R7). `State.turns` is the interleaving: any order of the agents' steps is some list (log 3). -/
inductive Turn where
  /-- The Host makes one access (20_memory.md R72 (a)). -/
  | host (a : HostAccess)
  /-- The Engine takes one step of the running command, if one is enabled. -/
  | engine
  /-- The Transport gives its next answer, whether or not a request is in flight. -/
  | transport
  /-- The DeadlineSource gives its next answer, whether or not a query is in flight. -/
  | deadlineSource
  /-- The reset input is asserted and released (70_reset_and_hazards.md R230). -/
  | reset
deriving DecidableEq, Repr

/-- What the block sends out: the answers to host reads, deadline queries (R92) and transport requests (R90). -/
inductive PortEvent where
  | regRead (off : BitVec 8) (v : Word)
  | bufRead (a : Nat) (b : Byte)
  | query (token : Word)
  | request (r : Request)
deriving DecidableEq, Repr

end Sys2Proof.Machine
end

