-- ==== Sys2Proof/Machine/State.lean ====
section
/-! DEFINITION. The state of the MQFE: the host register file (10_state.md R21 to R36), the Engine's internal state
(R38), the packet buffer BUF (20_memory.md R60), and the model's own fields: the writes the running command has yet to
perform, the agents' turns and answers, and the record of what left the ports. Plain data throughout. -/

namespace Sys2Proof.Machine

/-- STATUS.ERRCODE (60_exceptions.md R200). The reserved codes 9..15 are never produced and have no name here. -/
inductive ErrCode where
  | none
  | transportError
  | timeoutExpired
  | malformedLength
  | bufferOverflow
  | connectionClosed
  | illegalCommand
  | badArgument
  | xportContract
deriving DecidableEq, Repr

/-- STATUS (R25). Its reserved bits read 0 and are written by nobody (R26), so only the fields are held. -/
structure Status where
  busy : Bool
  done : Bool
  err : Bool
  errcode : ErrCode
deriving DecidableEq, Repr

/-- LEN_INFO (R32); its reserved bits read 0. -/
structure LenInfo where
  wireCount : Count
  encCount : Count
  offset : Count
deriving DecidableEq, Repr

/-- HDR (R34); its reserved bits read 0 and ignore writes (R22). -/
structure Hdr where
  byte : Byte
  type : Nibble
  flags : Nibble
deriving DecidableEq, Repr

/-- The host register file (R21). CMD is a trigger and holds no value (R24). DL_CTRL has one bit (R30). -/
structure Regs where
  status : Status
  cap : Word
  length : Word
  dlToken : Word
  hasDeadline : Bool
  lenValue : Word
  lenInfo : LenInfo
  encBytes : Word
  hdr : Hdr
  xferCount : Word
  xportCode : Word
deriving DecidableEq, Repr

/-- The Engine's phases (R39). -/
inductive Phase where
  | idle
  | ld
  | rpHdr
  | rpLen
  | rpPay
  | sp
deriving DecidableEq, Repr

/-- Which answer the Engine waits for (R38). -/
inductive Wait where
  | none
  | timer
  | xport
deriving DecidableEq, Repr

/-- The Engine's internal state, name by name as R38 lists it. -/
structure Engine where
  phase : Phase
  wait : Wait
  op : Nibble
  capL : Word
  lenL : Word
  tokL : Word
  hasL : Bool
  acc : RemLen
  i : Count
  v : RemLen
  off : Count
  got : Word
  req : Request
deriving DecidableEq, Repr

/-- One write a command's rule performs, as the pseudocode of R112, R120, R170 and R185 writes it. The Engine performs
them one at a time, in the order of the rule (20_memory.md R72 (d)); log 4. -/
inductive Micro where
  | setI (n : Count)
  | setWireCount (n : Count)
  | setAcc (a : RemLen)
  | setV (x : RemLen)
  | setLenValue (x : Word)
  | setOff (n : Count)
  | setEncByte (k : Nat) (b : Byte)
  | setEncCount (n : Count)
  | setOffset (n : Count)
  | setHdr (h : Byte)
  | setPhase (p : Phase)
  | memWrite (a : Nat) (b : Byte)
  | setGot (n : Word)
  | setXferCount (n : Word)
  | setXportCode (c : Word)
  /-- Send the transport request of the call under way with this TIMEOUT (R162). -/
  | send (timeout : Word)
  /-- `finish(code)` (60_exceptions.md R205). -/
  | finish (c : ErrCode)
deriving DecidableEq, Repr

/-- BUF: (address, byte) pairs, addresses strictly rising. An address not listed has been written by nobody since
power-on and has no value (20_memory.md R62), so no entry can equal what an unlisted address reads as. -/
abbrev Memory := List Host.Cell

/-- The whole machine. -/
structure State where
  /-- The platform's parameters; no step changes them. -/
  cfg : Config
  /-- The host register file (R21). -/
  regs : Regs
  /-- The Engine's internal state (R38). -/
  eng : Engine
  /-- The packet buffer (R60). -/
  buf : Memory
  /-- MODEL's own: the writes of the running command still to be performed, in order (log 4). -/
  todo : List Micro
  /-- MODEL's own: whose turn it is, the next first (log 3). -/
  turns : List Turn
  /-- MODEL's own: the answers the Transport will give, the next first; every list is admitted (R7, R91). -/
  xportAnswers : List Answer
  /-- MODEL's own: the answers the DeadlineSource will give, the next first; every list is admitted (R7, R92). -/
  deadlineAnswers : List Word
  /-- MODEL's own: what has left the ports, oldest first. No step reads it. -/
  log : List PortEvent
deriving DecidableEq, Repr

/-- How the machine can stop with a fault. -/
inductive Fault where
  /-- A BUF byte that nothing has written since power-on is read, by a host buffer read or by SEND_PACKET collecting its
  data (20_memory.md R62, I7). Safe: the hardware goes on with some value. -/
  | bufByteNeverWritten
  /-- The Engine writes a BUF address at or above BUF_SIZE. The spec derives that it never does (R61); raised only in
  states no run reaches. Safe (log 14). -/
  | bufAddressOutside
deriving DecidableEq, Repr

/-- Why a step has no meaning. -/
inductive Refusal where
  /-- An instruction whose meaning is not written; raised by exec alone. Safe. No arm raises it. -/
  | notModelled (mnemonic : String)
  /-- A host register access that is not 32 bits wide and aligned (20_memory.md R64, I8); raised by a host turn. Safe. -/
  | registerAccessNotAligned32
  /-- A host BUF access, at any address, while STATUS.BUSY = 1, a race (20_memory.md R71, R243, I9); raised by a host turn.
  Safe (log 5, log 23). -/
  | bufAccessWhileBusy
  /-- A transport answer outside the port encoding of R91: an OK answer to a read whose data is not N bytes; raised by a
  transport turn. Safe (log 8). -/
  | answerOutsidePortEncoding
deriving DecidableEq, Repr

/-- Every register at 0 (R44). -/
def Regs.reset : Regs where
  status := ⟨false, false, false, .none⟩
  cap := 0
  length := 0
  dlToken := 0
  hasDeadline := false
  lenValue := 0
  lenInfo := ⟨0, 0, 0⟩
  encBytes := 0
  hdr := ⟨0, 0, 0⟩
  xferCount := 0
  xportCode := 0

/-- `phase` = IDLE, `wait` = NONE and every internal field 0 (R44, R230); DIR 0 is read. -/
def Engine.reset : Engine where
  phase := .idle
  wait := .none
  op := 0
  capL := 0
  lenL := 0
  tokL := 0
  hasL := false
  acc := 0
  i := 0
  v := 0
  off := 0
  got := 0
  req := ⟨.read, 0, 0, []⟩

/-- The machine right after power-on reset (R44, R230): every register and internal field 0, no BUF byte written (R62).
The configuration is log 1's choice; the model's own lists are empty (log 12). -/
def State.reset : State where
  cfg := Config.chosen
  regs := Regs.reset
  eng := Engine.reset
  buf := []
  todo := []
  turns := []
  xportAnswers := []
  deadlineAnswers := []
  log := []

end Sys2Proof.Machine
end

