-- ==== Sys2Proof/Machine/Flags.lean ====
section
/-! DEFINITION. STATUS, the MQFE's only flags (10_state.md R25, R26, R37), and how the fielded registers read as words
(R25, R30, R32, R34). -/

namespace Sys2Proof.Machine

/-- The number of an error code (60_exceptions.md R200). -/
def ErrCode.bits : ErrCode → Nibble
  | .none => 0
  | .transportError => 1
  | .timeoutExpired => 2
  | .malformedLength => 3
  | .bufferOverflow => 4
  | .connectionClosed => 5
  | .illegalCommand => 6
  | .badArgument => 7
  | .xportContract => 8

/-- STATUS at the issue of a command that does not complete at once (R26). -/
def Status.running : Status := ⟨true, false, false, .none⟩

/-- STATUS at `finish(code)` (R26, R205). -/
def Status.finished (c : ErrCode) : Status := ⟨false, true, c != .none, c⟩

/-- R25: BUSY [0], DONE [1], ERR [2], ERRCODE [11:8]; every other bit 0. -/
def Status.toWord (s : Status) : Word :=
  (BitVec.ofBool s.busy).setWidth 32 ||| ((BitVec.ofBool s.done).setWidth 32 <<< 1) |||
    ((BitVec.ofBool s.err).setWidth 32 <<< 2) ||| (s.errcode.bits.setWidth 32 <<< 8)

/-- R32: WIRE_COUNT [2:0], ENC_COUNT [6:4], OFFSET [10:8]; every other bit 0. -/
def LenInfo.toWord (l : LenInfo) : Word :=
  l.wireCount.setWidth 32 ||| (l.encCount.setWidth 32 <<< 4) ||| (l.offset.setWidth 32 <<< 8)

/-- R34: BYTE [7:0], TYPE [11:8], FLAGS [15:12]; every other bit 0. -/
def Hdr.toWord (h : Hdr) : Word :=
  h.byte.setWidth 32 ||| (h.type.setWidth 32 <<< 8) ||| (h.flags.setWidth 32 <<< 12)

/-- A host write of w to HDR: the three fields, the reserved bits ignored (R22, R34). -/
def Hdr.ofWord (w : Word) : Hdr := ⟨w.extractLsb' 0 8, w.extractLsb' 8 4, w.extractLsb' 12 4⟩

end Sys2Proof.Machine
end

