-- ==== Sys2Proof/Machine/Ops.lean ====
section
/-! DEFINITION. The shared operations: reading and writing BUF (20_memory.md R61, R62), issuing a command (10_state.md
R26, R38, R41), ending one (60_exceptions.md R205, the analogue of taking an exception; there is no return from it, R211:
the next issue resets STATUS), and sending on a port. -/

namespace Sys2Proof.Machine

/-- What a BUF byte nothing has written since power-on reads as: no value (R62). -/
def Memory.unlisted : Option Byte := none

/-- `MemRead(a, 1)` (R61). -/
def Memory.read : Memory → Nat → Option Byte
  | [], _ => Memory.unlisted
  | (k, b) :: m, a => if k = a then some b else Memory.read m a

/-- `MemWrite(a, 1, b)` (R61). -/
def Memory.write : Memory → Nat → Byte → Memory
  | [], a, b => [(a, b)]
  | (k, c) :: m, a, b =>
    if a < k then (a, b) :: (k, c) :: m
    else if a = k then (a, b) :: m
    else (k, c) :: Memory.write m a b

/-- The canonical form: addresses strictly rising. -/
abbrev Memory.wf (m : Memory) : Prop := m.Pairwise (fun x y => x.1 < y.1)

/-- The n bytes from address a upwards, if every one has been written (R68). -/
def Memory.readRange (m : Memory) : Nat → Nat → Option (List Byte)
  | _, 0 => some []
  | a, n + 1 =>
    match m.read a, Memory.readRange m (a + 1) n with
    | some b, some bs => some (b :: bs)
    | _, _ => none

/-- BUF addresses 0 .. BUF_SIZE-1 exist (R60). -/
def State.inBuf (s : State) (a : Nat) : Bool := a < s.cfg.bufSize.toNat

/-- `finish(code)`; `raise E` is `finish(E)` (R205). The command has ended, so it has no write left to perform. -/
def finish (c : ErrCode) (s : State) : State :=
  { s with
    regs := { s.regs with status := Status.finished c }
    eng := { s.eng with phase := .idle, wait := .none }
    todo := [] }

/-- What the issue of every command does to the Engine's internal fields (R38 `op`, R41). -/
def issue (op : Nibble) (s : State) : State :=
  { s with eng := { s.eng with op := op, acc := 0, i := 0, v := 0, off := 0, got := 0 } }

/-- Latch the deadline of a command that makes transport calls (R38, R167). -/
def latchDeadline (s : State) : State :=
  { s with eng := { s.eng with hasL := s.regs.hasDeadline, tokL := s.regs.dlToken } }

/-- A command that does not complete at once runs from here (R26, R39), with these writes of its rule due first. -/
def start (p : Phase) (ops : List Micro) (s : State) : State :=
  { s with
    regs := { s.regs with status := Status.running }
    eng := { s.eng with phase := p }
    todo := ops }

/-- Something leaves a port. -/
def emit (e : PortEvent) (s : State) : State := { s with log := s.log ++ [e] }

/-- The Engine's next write is no longer due. -/
def dropTodo (s : State) : State := { s with todo := s.todo.tail }

end Sys2Proof.Machine
end

