-- ==== Sys2Proof/Machine/Operands.lean ====
section
/-! DEFINITION. The register map: which register an offset names, what a host read of it returns and what a host write to
it does (10_state.md R20 to R36). Every operand of a command is one of these registers (30_encoding.md R84). -/

namespace Sys2Proof.Machine

/-- The twelve registers (R21). -/
inductive Reg where
  | cmd
  | status
  | cap
  | length
  | dlToken
  | dlCtrl
  | lenValue
  | lenInfo
  | encBytes
  | hdr
  | xferCount
  | xportCode
deriving DecidableEq, Repr

/-- The register map (R21): offsets 0x30 to 0xFF are unused. -/
def Reg.ofOffset : BitVec 8 → Option Reg
  | 0x00#8 => some .cmd
  | 0x04#8 => some .status
  | 0x08#8 => some .cap
  | 0x0C#8 => some .length
  | 0x10#8 => some .dlToken
  | 0x14#8 => some .dlCtrl
  | 0x18#8 => some .lenValue
  | 0x1C#8 => some .lenInfo
  | 0x20#8 => some .encBytes
  | 0x24#8 => some .hdr
  | 0x28#8 => some .xferCount
  | 0x2C#8 => some .xportCode
  | _ => none

/-- The Host's address of a register offset (20_memory.md R77). -/
def regAddr (c : Config) (off : BitVec 8) : Nat := c.regBase + off.toNat

/-- The Host's address of BUF[a] (R77). -/
def bufAddr (c : Config) (a : Nat) : Nat := c.bufBase + a

/-- The offset inside the 256 bytes of the register space (R20, R60) that a Host address is, if it is one (R77). -/
def regOffset (c : Config) (addr : Nat) : Option (BitVec 8) :=
  if c.regBase ≤ addr ∧ addr < c.regBase + 256 then some (BitVec.ofNat 8 (addr - c.regBase)) else none

/-- The BUF address that a Host address is, if it is one that BUF has storage for (R60, R77). -/
def bufIndex (c : Config) (addr : Nat) : Option Nat :=
  if c.bufBase ≤ addr ∧ addr < c.bufBase + c.bufSize.toNat then some (addr - c.bufBase) else none

/-- Where in the Host's address space a host access is made (R77, 30_encoding.md R94). -/
def HostAccess.addr (c : Config) : HostAccess → Nat
  | .regRead off _ => regAddr c off
  | .regWrite off _ _ => regAddr c off
  | .bufRead a => bufAddr c a
  | .bufWrite a _ => bufAddr c a

/-- What a host read of a register returns: CMD reads 0 (R22, R24), reserved bits read 0 (R22). -/
def Regs.read (r : Regs) : Reg → Word
  | .cmd => 0
  | .status => r.status.toWord
  | .cap => r.cap
  | .length => r.length
  | .dlToken => r.dlToken
  | .dlCtrl => (BitVec.ofBool r.hasDeadline).setWidth 32
  | .lenValue => r.lenValue
  | .lenInfo => r.lenInfo.toWord
  | .encBytes => r.encBytes
  | .hdr => r.hdr.toWord
  | .xferCount => r.xferCount
  | .xportCode => r.xportCode

/-- A host read at an offset: an unused offset reads 0 (R22). -/
def Regs.readAt (r : Regs) (off : BitVec 8) : Word :=
  match Reg.ofOffset off with
  | some x => r.read x
  | none => 0

/-- What a host write stores: an `R` register ignores it, an `RW` register takes it, reserved bits ignore it (R22). CMD
stores nothing (R24); that a CMD write issues a command stands in Machine/HostPort.lean. -/
def Regs.write (r : Regs) (x : Reg) (w : Word) : Regs :=
  match x with
  | .cmd => r
  | .status => r
  | .cap => { r with cap := w }
  | .length => { r with length := w }
  | .dlToken => { r with dlToken := w }
  | .dlCtrl => { r with hasDeadline := w.getLsbD 0 }
  | .lenValue => { r with lenValue := w }
  | .lenInfo => r
  | .encBytes => r
  | .hdr => { r with hdr := Hdr.ofWord w }
  | .xferCount => r
  | .xportCode => r

/-- The largest remaining length, 2^28-1 (R9). -/
def maxRemLen : Word := 0x0FFFFFFF

/-- The unbounded timeout (R93). -/
def unbounded : Word := 0xFFFFFFFF

/-- ENC_BYTES with byte k, at bits [8k+7:8k], replaced (R33, R69). -/
def setEncByte (w : Word) (k : Nat) (b : Byte) : Word :=
  (w &&& ~~~((0xFF : Word) <<< (8 * k))) ||| (b.setWidth 32 <<< (8 * k))

/-- ENC_BYTES with the bytes of a list replaced from byte k upwards. -/
def setEncBytes (w : Word) : Nat → List Byte → Word
  | _, [] => w
  | k, b :: bs => setEncBytes (setEncByte w k b) (k + 1) bs

end Sys2Proof.Machine
end

