-- ==== Sys2Proof/Machine/Header.lean ====
section
/-! DEFINITION. The HeaderCodec (41_header_codec.md): the fixed-header bit fields and the commands HDR_UNPACK and
HDR_PACK. No header byte is rejected (00_scope.md R6). -/

namespace Sys2Proof.Machine

/-- `HdrType(h)` = (h >> 4) & 0xF (R140). -/
def hdrType (h : Byte) : Nibble := ((h >>> 4) &&& 0xF).setWidth 4

/-- `HdrFlags(h)` = h[3:0] (R141). -/
def hdrFlags (h : Byte) : Nibble := h.extractLsb' 0 4

/-- `HdrPack(t, f)` = (t << 4) | f (R142). -/
def hdrPack (t f : Nibble) : Byte := (t.setWidth 8 <<< 4) ||| f.setWidth 8

/-- HDR as a header byte sets all three of its fields (42_packet_framer.md R170, R172). -/
def Hdr.ofByte (h : Byte) : Hdr := ⟨h, hdrType h, hdrFlags h⟩

/-- HDR_UNPACK (R145): completes at once. -/
def execHdrUnpack (s : State) : Host.Outcome State Fault Refusal :=
  let h := s.regs.hdr.byte
  let s := issue Instr.hdrUnpack.opcode s
  .next (finish .none { s with regs := { s.regs with
    hdr := { s.regs.hdr with type := hdrType h, flags := hdrFlags h } } })

/-- HDR_PACK (R148): completes at once. -/
def execHdrPack (s : State) : Host.Outcome State Fault Refusal :=
  let h := s.regs.hdr
  let s := issue Instr.hdrPack.opcode s
  .next (finish .none { s with regs := { s.regs with
    hdr := { s.regs.hdr with byte := hdrPack h.type h.flags } } })

end Sys2Proof.Machine
end

