-- ==== Sys2Proof/Machine/VarLen.lean ====
section
/-! DEFINITION. The VarLengthCodec (40_varlen_codec.md): the decoder step, the encoder, and the commands LEN_DECODE and
LEN_ENCODE. What LEN_DECODE does after its issue is the Engine's (Machine/Framer.lean, Machine/Engine.lean). -/

namespace Sys2Proof.Machine

/-- What the decoder step answers (R110). -/
inductive DecResult where
  | done (acc : RemLen) (i : Count)
  | more (acc : RemLen) (i : Count)
  | malformed
deriving DecidableEq, Repr

/-- A byte's continuation bit, bit 7 (30_encoding.md R88). -/
def contBit (b : Byte) : Bool := b.getLsbD 7

/-- A byte's group, bits 6..0 (R88). -/
def group (b : Byte) : BitVec 7 := b.extractLsb' 0 7

/-- `VarDecStep(acc, i, b)` (R110). -/
def varDecStep (acc : RemLen) (i : Count) (b : Byte) : DecResult :=
  let acc' : RemLen := acc ||| ((group b).setWidth 28 <<< (7 * i.toNat))
  let i' : Count := i + 1
  if contBit b = false then .done acc' i'
  else if i' = 4 then .malformed
  else .more acc' i'

/-- The decoder steps `VarDecode` takes over a sequence of bytes, one per byte until a step is not `More` (R111, R112);
`none` if the bytes run out first. -/
def varDecode : RemLen → Count → List Byte → Option DecResult
  | _, _, [] => none
  | acc, i, b :: bs =>
    match varDecStep acc i b with
    | .more acc' i' => varDecode acc' i' bs
    | r => some r

/-- The loop of `VarEncode` (R114), at most `fuel` rounds; a value of 28 bits needs at most four. -/
def varEncodeLoop : Nat → RemLen → List Byte
  | 0, _ => []
  | fuel + 1, x =>
    let d : Byte := (x.extractLsb' 0 7).setWidth 8
    let x' := x >>> 7
    if x' = 0 then [d] else (d ||| 0x80) :: varEncodeLoop fuel x'

/-- `VarEncode(x)`: the bytes e_0 … e_{n-1} (R114). -/
def varEncode (x : RemLen) : List Byte := varEncodeLoop 4 x

/-- `EncLen(x)`, the n of `VarEncode(x)` (R115). -/
def encLen (x : RemLen) : Nat := (varEncode x).length

/-- `EncLen(x)` as ENC_COUNT holds it (10_state.md R32). -/
def encCount (x : RemLen) : Count := BitVec.ofNat 3 (encLen x)

/-- LEN_DECODE (R120): its issue. The Engine reads and decodes the bytes in the steps that follow. -/
def execLenDecode (s : State) : Host.Outcome State Fault Refusal :=
  let s := latchDeadline (issue Instr.lenDecode.opcode s)
  let s := { s with regs := { s.regs with
    lenValue := 0, lenInfo := { s.regs.lenInfo with wireCount := 0 }, xportCode := 0 } }
  .next (start .ld [] s)

/-- LEN_ENCODE (R125): completes at once. -/
def execLenEncode (s : State) : Host.Outcome State Fault Refusal :=
  let x := s.regs.lenValue
  let s := issue Instr.lenEncode.opcode s
  let s := { s with regs := { s.regs with
    encBytes := 0, lenInfo := { s.regs.lenInfo with encCount := 0 } } }
  if x > maxRemLen then .next (finish .badArgument s)
  else
    let s := { s with regs := { s.regs with
      encBytes := setEncBytes s.regs.encBytes 0 (varEncode (x.setWidth 28))
      lenInfo := { s.regs.lenInfo with encCount := encCount (x.setWidth 28) } } }
    .next (finish .none s)

end Sys2Proof.Machine
end

