-- ==== Sys2Proof/Machine/Framer.lean ====
section
/-! DEFINITION. The PacketFramer (42_packet_framer.md): the issue of READ_PACKET and SEND_PACKET, which transport call the
running command makes next, and the writes its rule performs on the answer. -/

namespace Sys2Proof.Machine

/-- Step 0 of READ_PACKET (R171): a capacity beyond the storage, then a capacity of 0, ends the command. -/
def capOps (cap bufSize : Word) : List Micro :=
  if cap > bufSize then [.finish .badArgument] else if cap = 0 then [.finish .bufferOverflow] else []

/-- The check of SEND_PACKET's length (R185). -/
def lenOps (len bufSize : Word) : List Micro :=
  if len > bufSize then [.finish .badArgument] else []

/-- READ_PACKET (R170): its issue. Step 0 is the first Engine step (log 4). -/
def execReadPacket (s : State) : Host.Outcome State Fault Refusal :=
  let cap := s.regs.cap
  let s := latchDeadline (issue Instr.readPacket.opcode s)
  let s := { s with
    eng := { s.eng with capL := cap }
    regs := { s.regs with
      hdr := ⟨0, 0, 0⟩, lenValue := 0, lenInfo := ⟨0, 0, 0⟩, encBytes := 0, xferCount := 0, xportCode := 0 } }
  .next (start .rpHdr (capOps cap s.cfg.bufSize) s)

/-- SEND_PACKET (R185): its issue. The check of LENGTH is the first Engine step (log 4). -/
def execSendPacket (s : State) : Host.Outcome State Fault Refusal :=
  let len := s.regs.length
  let s := latchDeadline (issue Instr.sendPacket.opcode s)
  let s := { s with
    eng := { s.eng with lenL := len }
    regs := { s.regs with xferCount := 0, xportCode := 0 } }
  .next (start .sp (lenOps len s.cfg.bufSize) s)

/-- What the running command does when no write of its rule is due. -/
inductive Plan where
  /-- It makes the transport call XCall(dir, n, data) (R162). -/
  | call (dir : Dir) (n : Word) (data : List Byte)
  /-- Its rule is complete: `finish(0)`. -/
  | complete
  /-- It collects its data and reads a BUF byte nothing has written (20_memory.md R62, I7). -/
  | unwritten
deriving DecidableEq, Repr

/-- One byte for the header and for every length byte (R164, R172, R173), the missing payload (R165, R179; the loop guard
`got < v` makes a read of 0 bytes impossible, R177), or the whole write (R185, R188). -/
def plan (s : State) : Plan :=
  match s.eng.phase with
  | .idle => .complete
  | .ld | .rpHdr | .rpLen => .call .read 1 []
  | .rpPay =>
    if s.eng.got < s.eng.v.setWidth 32 then .call .read (s.eng.v.setWidth 32 - s.eng.got) [] else .complete
  | .sp =>
    match s.buf.readRange 0 s.eng.lenL.toNat with
    | some data => .call .write s.eng.lenL data
    | none => .unwritten

/-- `ReadResult(ans, n)` but for its write of XPORT_CODE (R163). -/
def readResult (a : Answer) (n : Word) : Except ErrCode (List Byte) :=
  match a.st with
  | .ok => if 1 ≤ a.n ∧ a.n ≤ n then .ok a.rdata else .error .xportContract
  | .err => .error .transportError
  | .tmo => .error .timeoutExpired
  | .cls => .error .connectionClosed

/-- What a failed answer writes: XPORT_CODE for an ERR answer only, then `finish(e)` (R163, R166, R201, R206). -/
def failOps (a : Answer) (e : ErrCode) : List Micro :=
  match a.st with
  | .err => [.setXportCode a.code, .finish e]
  | .ok | .tmo | .cls => [.finish e]

/-- `WriteResult(ans)` and the end of SEND_PACKET (R166, R185 to R187). -/
def writeOps (a : Answer) : List Micro :=
  match a.st with
  | .ok => [.setXferCount a.n, .finish .none]
  | .err => failOps a .transportError
  | .tmo => failOps a .timeoutExpired
  | .cls => failOps a .connectionClosed

/-- Write these bytes at BUF[a], BUF[a+1], … (20_memory.md R68). -/
def memWriteOps : Nat → List Byte → List Micro
  | _, [] => []
  | a, b :: bs => .memWrite a b :: memWriteOps (a + 1) bs

/-- Set ENC_BYTES byte k, k+1, … to these bytes. -/
def encByteOps : Nat → List Byte → List Micro
  | _, [] => []
  | k, b :: bs => .setEncByte k b :: encByteOps (k + 1) bs

/-- Step 4 of READ_PACKET: no payload, a payload that does not fit, or the payload calls (R176 to R178). -/
def payloadOps (capL : Word) (off : Nat) (v : RemLen) : List Micro :=
  if v = 0 then [.finish .none]
  else if off + v.toNat > capL.toNat then [.finish .bufferOverflow]
  else [.setPhase .rpPay]

/-- The end of step 3 (R174): the capacity test comes before the encoded bytes are written, whatever v is. -/
def storeOps (capL : Word) (e : List Byte) (v : RemLen) : List Micro :=
  if 1 + e.length > capL.toNat then [.finish .bufferOverflow]
  else memWriteOps 1 e ++ payloadOps capL (1 + e.length) v

/-- READ_PACKET from the decoded length v to the first payload call: the end of step 2, step 3 (R174, R175) and step 4. -/
def lengthOps (capL : Word) (v : RemLen) : List Micro :=
  [.setV v, .setLenValue (v.setWidth 32), .setOff (1 + encCount v)] ++ encByteOps 0 (varEncode v) ++
    [.setEncCount (encCount v), .setOffset (1 + encCount v)] ++ storeOps capL (varEncode v) v

/-- One round of `VarDecode` (40_varlen_codec.md R112), then what the command does with a decoded value. -/
def lenByteOps (s : State) (b : Byte) : List Micro :=
  [.setI (s.eng.i + 1), .setWireCount (s.eng.i + 1)] ++
    match varDecStep s.eng.acc s.eng.i b with
    | .more a _ => [.setAcc a]
    | .malformed => [.finish .malformedLength]
    | .done a _ =>
      .setAcc a ::
        (if s.eng.phase = .ld then [.setLenValue (a.setWidth 32), .finish .none] else lengthOps s.eng.capL a)

/-- What the running command writes on the bytes a read delivered: the header byte (R172), one length byte (R173), or
payload bytes (R179). -/
def dataOps (s : State) (bytes : List Byte) : List Micro :=
  match s.eng.phase, bytes with
  | .rpHdr, h :: _ => [.memWrite 0 h, .setHdr h, .setPhase .rpLen]
  | .ld, b :: _ => lenByteOps s b
  | .rpLen, b :: _ => lenByteOps s b
  | .rpPay, bs =>
    let got := s.eng.got + BitVec.ofNat 32 bs.length
    memWriteOps (s.eng.off.toNat + s.eng.got.toNat) bs ++ [.setGot got, .setXferCount got]
  | _, _ => []

/-- The writes the running command's rule performs on a transport answer. -/
def answerOps (s : State) (a : Answer) : List Micro :=
  match s.eng.req.dir with
  | .write => writeOps a
  | .read =>
    match readResult a s.eng.req.n with
    | .ok bytes => dataOps s bytes
    | .error e => failOps a e

end Sys2Proof.Machine
end

