-- ==== Sys2Proof/Machine/Dispatch.lean ====
section
/-! DEFINITION. One arm per command: its meaning at the CMD write (30_encoding.md R81). -/

namespace Sys2Proof.Machine

def exec (i : Instr) (s : State) : Host.Outcome State Fault Refusal :=
  match i with
  | .lenDecode => Sys2Proof.Machine.execLenDecode s
  | .lenEncode => Sys2Proof.Machine.execLenEncode s
  | .hdrUnpack => Sys2Proof.Machine.execHdrUnpack s
  | .hdrPack => Sys2Proof.Machine.execHdrPack s
  | .readPacket => Sys2Proof.Machine.execReadPacket s
  | .sendPacket => Sys2Proof.Machine.execSendPacket s

end Sys2Proof.Machine
end

