-- ==== Sys2Proof/Machine/Engine.lean ====
section
/-! DEFINITION. The Engine's steps while a command runs (10_state.md R39, 70_reset_and_hazards.md R242): performing the
next write of the command's rule, making a transport call with the deadline query before it, and taking the answers of
the Transport and of the DeadlineSource. -/

namespace Sys2Proof.Machine

/-- Send the request of the transport call under way (42_packet_framer.md R162). -/
def sendRequest (timeout : Word) (s : State) : Host.Outcome State Fault Refusal :=
  match plan s with
  | .call dir n data =>
    let r : Request := ⟨dir, n, timeout, data⟩
    .next (emit (.request r) { s with eng := { s.eng with req := r, wait := .xport } })
  | .complete => .next (finish .none s)
  | .unwritten => .fault .bufByteNeverWritten

/-- Begin the next transport call: `Timeout()` asks the DeadlineSource if a deadline was latched, else the request goes
out at once with the unbounded timeout (R161, R162). SEND_PACKET collects its data before either (R185, log 16). -/
def beginCall (s : State) : Host.Outcome State Fault Refusal :=
  match plan s with
  | .call _ _ _ =>
    if s.eng.hasL then
      .next (emit (.query s.eng.tokL) { s with eng := { s.eng with wait := .timer } })
    else sendRequest unbounded s
  | .complete => .next (finish .none s)
  | .unwritten => .fault .bufByteNeverWritten

/-- What one write of a command's rule does to the register file. -/
def onRegs (op : Micro) (r : Regs) : Regs :=
  match op with
  | .setWireCount n => { r with lenInfo := { r.lenInfo with wireCount := n } }
  | .setLenValue x => { r with lenValue := x }
  | .setEncByte k b => { r with encBytes := setEncByte r.encBytes k b }
  | .setEncCount n => { r with lenInfo := { r.lenInfo with encCount := n } }
  | .setOffset n => { r with lenInfo := { r.lenInfo with offset := n } }
  | .setHdr h => { r with hdr := Hdr.ofByte h }
  | .setXferCount n => { r with xferCount := n }
  | .setXportCode c => { r with xportCode := c }
  | .finish c => { r with status := Status.finished c }
  | .setI _ | .setAcc _ | .setV _ | .setOff _ | .setPhase _ | .memWrite _ _ | .setGot _ | .send _ => r

/-- What one write of a command's rule does to the Engine's internal fields (`send` sets `req` and `wait` besides,
`sendRequest`). -/
def onEngine (op : Micro) (e : Engine) : Engine :=
  match op with
  | .setI n => { e with i := n }
  | .setAcc a => { e with acc := a }
  | .setV x => { e with v := x }
  | .setOff n => { e with off := n }
  | .setPhase p => { e with phase := p }
  | .setGot n => { e with got := n }
  | .finish _ => { e with phase := .idle, wait := .none }
  | .setWireCount _ | .setLenValue _ | .setEncByte _ _ | .setEncCount _ | .setOffset _ | .setHdr _ | .memWrite _ _
  | .setXferCount _ | .setXportCode _ | .send _ => e

/-- The Engine performs one write of a command's rule. -/
def perform (op : Micro) (s : State) : Host.Outcome State Fault Refusal :=
  match op with
  | .memWrite a b => if s.inBuf a then .next { s with buf := s.buf.write a b } else .fault .bufAddressOutside
  | .send t => sendRequest t s
  | .finish c => .next (finish c s)
  | _ => .next { s with regs := onRegs op s.regs, eng := onEngine op s.eng }

/-- One Engine step. In IDLE, and while it waits for an answer, the Engine does nothing (60_exceptions.md R220). -/
def engineStep (s : State) : Host.Outcome State Fault Refusal :=
  match s.eng.phase, s.eng.wait with
  | .idle, _ => .next s
  | _, .timer => .next s
  | _, .xport => .next s
  | _, .none =>
    match s.todo with
    | op :: _ => perform op (dropTodo s)
    | [] => beginCall s

/-- The Transport gives its next answer. With no request in flight it is discarded (R231, R243); otherwise the Engine
takes it, and the writes of the command's rule are due. An answer has no mark of its request: one that belongs to a
request reset abandoned and comes when a new one is in flight is taken as the new one's. DESIGN CHOICE (log 22). -/
def transportStep (s : State) : Host.Outcome State Fault Refusal :=
  match s.xportAnswers with
  | [] => .next s
  | a :: rest =>
    let s := { s with xportAnswers := rest }
    if s.eng.wait = .xport then
      if a.wf s.eng.req.dir then
        .next { s with eng := { s.eng with wait := .none }, todo := answerOps s a }
      else .refused .answerOutsidePortEncoding
    else .next s

/-- The DeadlineSource gives its next answer, which becomes the TIMEOUT of the request verbatim, whatever its value
(R161). With no query in flight it is discarded (R231, R243); one that belongs to a query reset abandoned and comes when a
new one is in flight is taken as the new one's. DESIGN CHOICE (log 22). -/
def deadlineStep (s : State) : Host.Outcome State Fault Refusal :=
  match s.deadlineAnswers with
  | [] => .next s
  | ms :: rest =>
    let s := { s with deadlineAnswers := rest }
    if s.eng.wait = .timer then
      .next { s with eng := { s.eng with wait := .none }, todo := [.send ms] }
    else .next s

/-- Reset (R230): every register and internal field takes its reset value and a running command is abandoned; BUF is not
changed. What is outside the block (the answers and turns to come, the record of the ports) is not touched (R43). -/
def resetStep (s : State) : State :=
  { s with regs := Regs.reset, eng := Engine.reset, todo := [] }

/-- What happens when no turn is given: whichever of the Engine, the DeadlineSource and the Transport has a step to take
takes it (weak fairness, R242); an agent that never answers leaves the machine as it is (R168). -/
def defaultStep (s : State) : Host.Outcome State Fault Refusal :=
  match s.eng.wait with
  | .none => engineStep s
  | .timer => deadlineStep s
  | .xport => transportStep s

end Sys2Proof.Machine
end

