-- ==== Sys2Proof/Machine/HostPort.lean ====
section
/-! DEFINITION. What a host access does (10_state.md R22 to R24, 20_memory.md R64, R65, R70, R71), a CMD write among them
(30_encoding.md R81, R85). -/

namespace Sys2Proof.Machine

/-- A CMD write while STATUS.BUSY = 0: the command of the word is issued, or the word is illegal and completes at once
with ILLEGAL_COMMAND (R81, R85). -/
def cmdWrite (w : Word) (s : State) : Host.Outcome State Fault Refusal :=
  match decode w with
  | .ok i => exec i s
  | .error _ => .next (finish .illegalCommand s)

/-- A 32-bit write at an offset. While STATUS.BUSY = 1 it is ignored (R23); at an unused offset it is ignored (R22). -/
def regWrite (off : BitVec 8) (w : Word) (s : State) : Host.Outcome State Fault Refusal :=
  if s.regs.status.busy then .next s
  else
    match Reg.ofOffset off with
    | some .cmd => cmdWrite w s
    | some x => .next { s with regs := s.regs.write x w }
    | none => .next s

/-- A host read of one BUF byte: 0 at and above BUF_SIZE (R65), a fault for a byte nothing has written (R62, I7). -/
def bufRead (a : Nat) (s : State) : Host.Outcome State Fault Refusal :=
  if s.inBuf a then
    match s.buf.read a with
    | some b => .next (emit (.bufRead a b) s)
    | none => .fault .bufByteNeverWritten
  else .next (emit (.bufRead a 0) s)

/-- A host write of one BUF byte: ignored at and above BUF_SIZE (R65). -/
def bufWrite (a : Nat) (b : Byte) (s : State) : Host.Outcome State Fault Refusal :=
  if s.inBuf a then .next { s with buf := s.buf.write a b } else .next s

/-- One host access. A register access of another size or alignment is refused (R64, I8), and so is a BUF access while
STATUS.BUSY = 1 (R71, R243, I9; log 5), whatever its address: that an address at or above BUF_SIZE, for which R65 names no
BUSY condition, is refused too is a DESIGN CHOICE (log 23). -/
def hostStep (h : HostAccess) (s : State) : Host.Outcome State Fault Refusal :=
  if h.wf then
    match h with
    | .regRead off _ => .next (emit (.regRead off (s.regs.readAt off)) s)
    | .regWrite off _ w => regWrite off w s
    | .bufRead a => if s.regs.status.busy then .refused .bufAccessWhileBusy else bufRead a s
    | .bufWrite a b => if s.regs.status.busy then .refused .bufAccessWhileBusy else bufWrite a b s
  else .refused .registerAccessNotAligned32

/-- One agent's turn. -/
def turnStep (t : Turn) (s : State) : Host.Outcome State Fault Refusal :=
  match t with
  | .host h => hostStep h s
  | .engine => engineStep s
  | .transport => transportStep s
  | .deadlineSource => deadlineStep s
  | .reset => .next (resetStep s)

/-- The Engine without a running command, for a state the next CMD write is to be issued in: idle, waiting for nothing,
nothing due. A state whose Engine is idle already is left as it is. -/
def quiesce (s : State) : State :=
  { s with
    regs := { s.regs with status := { s.regs.status with busy := false } }
    eng := { s.eng with phase := .idle, wait := .none }
    todo := [] }

/-- The host access that writes a command word to CMD (R94). -/
def cmdAccess (w : Word) : HostAccess := .regWrite 0x00 4 w

end Sys2Proof.Machine
end

