-- ==== Sys2Proof/Machine/Step.lean ====
section
/-! DEFINITION. One step of the machine: the agent whose turn is next acts; with no turn given, whoever has a step to take
takes it (log 3). -/

namespace Sys2Proof.Machine

def step (s : State) : Host.Outcome State Fault Refusal :=
  match s.turns with
  | t :: rest => turnStep t { s with turns := rest }
  | [] => defaultStep s

/-- The MQFE fetches nothing (10_state.md R40): a command reaches it as a host write to CMD. The next turn is the Host's,
writing this word, with no command running so that the write issues it (log 7). -/
def State.withFetchWord (s : State) (nbits w : Nat) : State :=
  { quiesce s with turns := .host (cmdAccess (BitVec.ofNat 32 (w % 2 ^ nbits))) :: s.turns }

end Sys2Proof.Machine
end

