-- ==== Sys2Proof/Safety.lean ====
section
/-! DEFINITION. The terms claims use: what a legal STATUS and LEN_INFO are, the invariant of the machine, when a command
may be issued, and the shapes of answers and requests that claims about whole commands name. -/

namespace Sys2Proof.Machine

/-- The legal combinations of STATUS (10_state.md R25). -/
def Status.legal (s : Status) : Bool :=
  match s.busy, s.done, s.err with
  | false, false, false => s.errcode == .none
  | true, false, false => s.errcode == .none
  | false, true, false => s.errcode == .none
  | false, true, true => s.errcode != .none
  | _, _, _ => false

/-- The values of OFFSET: 0, 2..5 (R32). -/
def offsetLegal (n : Count) : Bool := n == 0 || (2 ≤ n.toNat && n.toNat ≤ 5)

/-- The values of LEN_INFO's fields (R32). -/
def LenInfo.legal (l : LenInfo) : Bool := l.wireCount.toNat ≤ 4 && l.encCount.toNat ≤ 4 && offsetLegal l.offset

/-- The phases of READ_PACKET (R39). -/
def Phase.reading : Phase → Bool
  | .rpHdr | .rpLen | .rpPay => true
  | .idle | .ld | .sp => false

/-- The opcode of the command a phase belongs to (R38, R39). -/
def Phase.opcode : Phase → Option Nibble
  | .idle => none
  | .ld => some Instr.lenDecode.opcode
  | .rpHdr | .rpLen | .rpPay => some Instr.readPacket.opcode
  | .sp => some Instr.sendPacket.opcode

/-- The register file once these writes are performed. A command's `finish` is its last write. -/
def settleRegs : List Micro → Regs → Regs
  | [], r => r
  | op :: ops, r => settleRegs ops (onRegs op r)

/-- The Engine's internal fields once these writes are performed. -/
def settleEngine : List Micro → Engine → Engine
  | [], e => e
  | op :: ops, e => settleEngine ops (onEngine op e)

/-- What a write that is due may carry: BUF writes stay below the capacity and inside BUF (20_memory.md R61), counts stay
in their ranges (R32), and READ_PACKET alone changes phase. -/
def Micro.legal (s : State) : Micro → Bool
  | .memWrite a _ => s.eng.phase.reading && a < s.eng.capL.toNat && s.inBuf a
  | .setWireCount n => n.toNat ≤ 4
  | .setEncCount n => n.toNat ≤ 4
  | .setOffset n => offsetLegal n
  | .setPhase p => s.eng.phase.reading && p.reading
  | .send _ => s.eng.hasL
  | _ => true

/-- Whether a write that is due is the sending of a request. -/
def Micro.isSend : Micro → Bool
  | .send _ => true
  | _ => false

/-- What holds of the registers and the framing fields when no write is due: the decoder has consumed at most three bytes
and its accumulator holds only their groups (40_varlen_codec.md R117), WIRE_COUNT counts them (R112); READ_PACKET's
capacity is between 1 and BUF_SIZE (R171) and its payload fits below it (R176, R178); SEND_PACKET's length is at most
BUF_SIZE (R185). -/
abbrev Framed (c : Config) (r : Regs) (e : Engine) : Prop :=
  (e.phase.reading = true → 1 ≤ e.capL.toNat ∧ e.capL.toNat ≤ c.bufSize.toNat) ∧
  (e.phase = .rpHdr → e.i = 0) ∧
  (e.phase = .ld ∨ e.phase = .rpHdr ∨ e.phase = .rpLen →
    e.i.toNat ≤ 3 ∧ e.acc.toNat < 2 ^ (7 * e.i.toNat) ∧ r.lenInfo.wireCount = e.i) ∧
  (e.phase = .rpHdr ∨ e.phase = .rpLen → e.got = 0 ∧ r.xferCount = 0) ∧
  (e.phase = .rpPay →
    e.v ≠ 0 ∧ e.off.toNat = 1 + encLen e.v ∧ e.off.toNat + e.v.toNat ≤ e.capL.toNat ∧
      e.got.toNat ≤ e.v.toNat ∧ r.xferCount = e.got ∧ r.lenValue = e.v.setWidth 32) ∧
  (e.phase = .sp → e.lenL.toNat ≤ c.bufSize.toNat)

/-- The invariant of the machine. -/
abbrev State.Inv (s : State) : Prop :=
  -- the platform's parameter (R9) and BUF (R60, R62)
  s.cfg.wf = true ∧ s.buf.wf ∧ (∀ c ∈ s.buf, c.1 < s.cfg.bufSize.toNat) ∧
  -- STATUS and LEN_INFO hold legal values (R25, R32), and BUSY = 1 exactly when a command runs (R39)
  s.regs.status.legal = true ∧ s.regs.lenInfo.legal = true ∧
  s.regs.status.busy = (s.eng.phase != .idle) ∧
  -- the running command is the one the phase belongs to (R38)
  (s.eng.phase ≠ .idle → s.eng.phase.opcode = some s.eng.op) ∧
  -- nothing is due in IDLE or while the Engine waits (R8, R205)
  (s.eng.phase = .idle → s.eng.wait = .none ∧ s.todo = []) ∧
  (s.eng.wait ≠ .none → s.todo = []) ∧
  -- a query is made only under a deadline; without one the timeout is unbounded (R161)
  (s.eng.wait = .timer → s.eng.hasL = true) ∧
  (s.eng.wait = .xport → s.eng.hasL = false → s.eng.req.timeout = unbounded) ∧
  -- the request in flight is the one the running command makes (R162)
  (s.eng.wait = .xport → plan s = .call s.eng.req.dir s.eng.req.n s.eng.req.wdata) ∧
  -- the writes that are due; a request is sent once nothing else is due
  (s.todo.any Micro.isSend = true → s.todo.length = 1) ∧
  (∀ op ∈ s.todo, op.legal s = true) ∧
  Framed s.cfg (settleRegs s.todo s.regs) (settleEngine s.todo s.eng)

/-- No command runs and no turn is given: the state in which the Host next writes CMD. -/
abbrev State.Ready (s : State) : Prop := s.Inv ∧ s.regs.status.busy = false ∧ s.turns = []

/-- Successful completion, and completion with an error (R26, R205). -/
def Status.success : Status := ⟨false, true, false, .none⟩
def Status.error (c : ErrCode) : Status := ⟨false, true, true, c⟩

/-- So many steps from s lead to t. -/
abbrev State.runsTo (s : State) (k : Nat) (t : State) : Prop := Host.Core.run Sys2Proof.core k s = .next t

/-- All that is neither a register nor the Engine's own: the configuration, every BUF byte, the turns, the agents' answers
and the record of the ports. -/
def SameOutside (s t : State) : Prop :=
  t.cfg = s.cfg ∧ (∀ a, t.buf.read a = s.buf.read a) ∧ t.turns = s.turns ∧ t.xportAnswers = s.xportAnswers ∧
    t.deadlineAnswers = s.deadlineAnswers ∧ t.log = s.log

/-- The Engine's fields right after the issue of a command (R41). -/
def issuedEngine (i : Instr) (s : State) : Engine :=
  { s.eng with op := i.opcode, acc := 0, i := 0, v := 0, off := 0, got := 0 }

/-- A transport that delivers these bytes one per answer. -/
def byteAnswers (bs : List Byte) : List Answer := bs.map (fun b => Answer.okBytes [b])

/-- One transport call: direction, length and data (R162). -/
abbrev Call := Dir × Word × List Byte

/-- The call that reads one byte (R164). -/
def byteCall : Call := (.read, 1, [])

/-- Payload calls as each chunk is answered: all that is missing is asked for (R179). -/
def chunkCalls : Nat → List (List Byte) → List Call
  | _, [] => []
  | missing, c :: cs => (.read, BitVec.ofNat 32 missing, []) :: chunkCalls (missing - c.length) cs

/-- What these calls send out: each request alone with the unbounded timeout, or after one query of the deadline token
with the answer as its timeout (R161, R162, R167). -/
def portCalls (deadline : Option Word) : List Word → List Call → List PortEvent
  | _, [] => []
  | ms, (d, n, data) :: cs =>
    match deadline with
    | none => .request ⟨d, n, unbounded, data⟩ :: portCalls none ms cs
    | some tok => .query tok :: .request ⟨d, n, ms.headD 0, data⟩ :: portCalls (some tok) ms.tail cs

/-- The deadline token a command issued now runs under, if any (R30). -/
def State.deadline (s : State) : Option Word := if s.regs.hasDeadline then some s.regs.dlToken else none

/-- What a command issued now sends out when it makes these calls. -/
def State.calls (s : State) (cs : List Call) : List PortEvent := portCalls s.deadline s.deadlineAnswers cs

/-- The DeadlineSource answers at least so many queries, if a deadline is supplied. -/
def State.answersDeadlines (s : State) (n : Nat) : Prop := s.regs.hasDeadline = true → n ≤ s.deadlineAnswers.length

/-- The DeadlineSource's answers after so many calls. -/
def State.deadlinesAfter (s : State) (n : Nat) : List Word :=
  if s.regs.hasDeadline then s.deadlineAnswers.drop n else s.deadlineAnswers

/-- `Σ b_j[6:0]·128^j` (R117). -/
def groupSum : List Byte → Nat
  | [] => 0
  | b :: bs => (group b).toNat + 128 * groupSum bs

/-- Every byte says another follows (R88). -/
def allContinue (bs : List Byte) : Prop := ∀ b ∈ bs, contBit b = true

/-- A well-formed remaining-length field: 1 to 4 bytes, every byte but the last with its continuation bit set (R88). -/
def wellFormedField (bs : List Byte) : Prop :=
  ∃ front last, bs = front ++ [last] ∧ front.length ≤ 3 ∧ allContinue front ∧ contBit last = false

/-- What ends a read with an error, and the error (R163). -/
def readFailure (n : Word) (a : Answer) : Option ErrCode :=
  match readResult a n with
  | .ok _ => none
  | .error e => some e

end Sys2Proof.Machine
end

