-- ==== Sys2Proof/Certificates/Slice0/Obligations.lean ====
section
/-! DEFINITION. The statements for the provers. Each docstring names the rules of spec/ a statement follows. `State.Ready`
is a state in which no command runs and no turn is given; `s.runsTo k t` is k steps of the machine; BUF is read through
`Memory.read`. Which agent steps when no turn is given is log 3's choice: every statement about a run of several steps is
about that order and says so. No statement leans on the values of BUF_SIZE and the bases at reset (log 1, log 15). -/

open Sys2Proof Sys2Proof.Machine

/-! ### Encodings -/

/-- 30_encoding.md R82, 95_test_vectors.md X-1 to X-5: the table's words, and words that are no command. -/
def Obligations.DecodeOfTheTableWords : Prop :=
  decode 0x00000001 = .ok .lenDecode ∧ decode 0x00000002 = .ok .lenEncode ∧ decode 0x00000003 = .ok .hdrUnpack ∧
  decode 0x00000004 = .ok .hdrPack ∧ decode 0x00000005 = .ok .readPacket ∧ decode 0x00000006 = .ok .sendPacket ∧
  decode 0x00000000 = .error .reservedOpcode ∧ decode 0x00000007 = .error .reservedOpcode ∧
  decode 0x0000000F = .error .reservedOpcode ∧ decode 0x00000015 = .error .reservedBits ∧
  decode 0x80000001 = .error .reservedBits

/-- R86: every one of the 2^32 words selects exactly one command or is illegal; decoding undoes encoding, and encoding
undoes decoding. -/
def Obligations.DecodeTotalAndExact : Prop :=
  (∀ (i : Instr), decode (encode i) = .ok i) ∧
  (∀ (w : Word) (i : Instr), decode w = .ok i → encode i = w) ∧
  (∀ (w : Word), (∃ (i : Instr), decode w = .ok i) ↔ 1 ≤ w.toNat ∧ w.toNat ≤ 6) ∧
  (∀ (w : Word), decode w = .error .reservedBits ↔ 16 ≤ w.toNat) ∧
  (∀ (w : Word), decode w = .error .reservedOpcode ↔ w.toNat = 0 ∨ 7 ≤ w.toNat ∧ w.toNat ≤ 15)

/-- R81: the host's write of a command word to CMD while no command runs is the command's meaning, the host's turn taken;
the same of the word `withFetchWord` places (log 7). -/
def Obligations.StepIssuesTheDecodedCommand : Prop :=
  (∀ (s : State) (w : Word) (i : Instr) (rest : List Turn),
    s.turns = .host (cmdAccess w) :: rest → s.regs.status.busy = false → decode w = .ok i →
    step s = exec i { s with turns := rest }) ∧
  (∀ (s : State) (i : Instr), step (s.withFetchWord 32 (encode i).toNat) = exec i (quiesce s)) ∧
  (∀ (s : State), s.Ready → quiesce s = s)

/-- R85: an illegal word completes at once with ILLEGAL_COMMAND, code 6, and touches nothing else. -/
def Obligations.IllegalWordCompletesAtOnce : Prop :=
  ∀ (s : State) (w : Word) (rest : List Turn),
    s.Inv → s.turns = .host (cmdAccess w) :: rest → s.regs.status.busy = false →
    (w.extractLsb' 4 28 ≠ 0 ∨ w.extractLsb' 0 4 = 0 ∨ 7 ≤ (w.extractLsb' 0 4).toNat) →
    ∃ (t : State), step s = .next t ∧
      t = { s with turns := rest, regs := { s.regs with status := ⟨false, true, true, .illegalCommand⟩ } } ∧
      t.regs.readAt 0x04 = 0x00000606

/-! ### The host port -/

/-- 10_state.md R23: while STATUS.BUSY = 1 a host register write is ignored and a host register read returns the current
value. -/
def Obligations.WritesWhileBusyAreIgnored : Prop :=
  ∀ (s : State) (off : BitVec 8) (w : Word) (rest : List Turn), s.regs.status.busy = true → off.toNat % 4 = 0 →
    (s.turns = .host (.regWrite off 4 w) :: rest → step s = .next { s with turns := rest }) ∧
    (s.turns = .host (.regRead off 4) :: rest →
      step s = .next { s with turns := rest, log := s.log ++ [.regRead off (s.regs.readAt off)] })

/-- R24, R25, R30, R32, R34, 60_exceptions.md R200: the bits of the registers that have fields, and the number of every
error code; every reserved bit reads 0. -/
def Obligations.RegisterFieldsAtTheirBits : Prop :=
  ∀ r : Regs,
    r.readAt 0x00 = 0 ∧
    ((r.readAt 0x04).getLsbD 0 = r.status.busy ∧ (r.readAt 0x04).getLsbD 1 = r.status.done ∧
      (r.readAt 0x04).getLsbD 2 = r.status.err ∧ (r.readAt 0x04).extractLsb' 3 5 = 0 ∧
      (r.readAt 0x04).extractLsb' 8 4 =
        (match r.status.errcode with
         | .none => 0
         | .transportError => 1
         | .timeoutExpired => 2
         | .malformedLength => 3
         | .bufferOverflow => 4
         | .connectionClosed => 5
         | .illegalCommand => 6
         | .badArgument => 7
         | .xportContract => 8) ∧
      (r.readAt 0x04).extractLsb' 12 20 = 0) ∧
    ((r.readAt 0x14).getLsbD 0 = r.hasDeadline ∧ (r.readAt 0x14).extractLsb' 1 31 = 0) ∧
    ((r.readAt 0x1C).extractLsb' 0 3 = r.lenInfo.wireCount ∧ (r.readAt 0x1C).getLsbD 3 = false ∧
      (r.readAt 0x1C).extractLsb' 4 3 = r.lenInfo.encCount ∧ (r.readAt 0x1C).getLsbD 7 = false ∧
      (r.readAt 0x1C).extractLsb' 8 3 = r.lenInfo.offset ∧ (r.readAt 0x1C).extractLsb' 11 21 = 0) ∧
    ((r.readAt 0x24).extractLsb' 0 8 = r.hdr.byte ∧ (r.readAt 0x24).extractLsb' 8 4 = r.hdr.type ∧
      (r.readAt 0x24).extractLsb' 12 4 = r.hdr.flags ∧ (r.readAt 0x24).extractLsb' 16 16 = 0)

/-- R22, R27 to R36, 20_memory.md R70: a register read, at any time and at every aligned offset, hands out the register's
value and changes nothing; CMD and every unused offset read 0. -/
def Obligations.RegisterReadHasNoSideEffect : Prop :=
  ∀ (s : State) (off : BitVec 8) (rest : List Turn), off.toNat % 4 = 0 → s.turns = .host (.regRead off 4) :: rest →
    step s = .next { s with turns := rest, log := s.log ++ [.regRead off (s.regs.readAt off)] } ∧
      (off = 0x00 ∨ 0x30 ≤ off.toNat → s.regs.readAt off = 0) ∧
      (off = 0x04 → s.regs.readAt off = s.regs.status.toWord) ∧
      (off = 0x08 → s.regs.readAt off = s.regs.cap) ∧
      (off = 0x0C → s.regs.readAt off = s.regs.length) ∧
      (off = 0x10 → s.regs.readAt off = s.regs.dlToken) ∧
      (off = 0x14 → s.regs.readAt off = if s.regs.hasDeadline then 1 else 0) ∧
      (off = 0x18 → s.regs.readAt off = s.regs.lenValue) ∧
      (off = 0x1C → s.regs.readAt off = s.regs.lenInfo.toWord) ∧
      (off = 0x20 → s.regs.readAt off = s.regs.encBytes) ∧
      (off = 0x24 → s.regs.readAt off = s.regs.hdr.toWord) ∧
      (off = 0x28 → s.regs.readAt off = s.regs.xferCount) ∧
      (off = 0x2C → s.regs.readAt off = s.regs.xportCode)

/-- R22, R27 to R34: what a host write leaves to be read, at every offset but CMD, while no command runs. An RW register
takes its writable bits; an R register and an unused offset ignore the write; every other register is as it was. -/
def Obligations.RegisterWriteThenRead : Prop :=
  ∀ (s : State) (off : BitVec 8) (w : Word) (rest : List Turn),
    s.turns = .host (.regWrite off 4 w) :: .host (.regRead off 4) :: rest → off.toNat % 4 = 0 → off ≠ 0 →
    s.regs.status.busy = false →
    ∃ (t : State), s.runsTo 2 t ∧ t.turns = rest ∧
      t.log = s.log ++ [.regRead off
        (if off = 0x08 ∨ off = 0x0C ∨ off = 0x10 ∨ off = 0x18 then w
         else if off = 0x14 then w &&& 0x00000001
         else if off = 0x24 then w &&& 0x0000FFFF
         else s.regs.readAt off)] ∧
      (∀ (o : BitVec 8), o ≠ off → t.regs.readAt o = s.regs.readAt o) ∧
      t.regs.status = s.regs.status ∧ t.eng = s.eng ∧
      (∀ (a : Nat), t.buf.read a = s.buf.read a) ∧ t.todo = s.todo ∧ t.cfg = s.cfg

/-- 20_memory.md R64: a register access of another width or alignment is refused. -/
def Obligations.OtherRegisterAccessesAreRefused : Prop :=
  ∀ (s : State) (off : BitVec 8) (size : Nat) (w : Word) (rest : List Turn), size ≠ 4 ∨ off.toNat % 4 ≠ 0 →
    (s.turns = .host (.regRead off size) :: rest → step s = .refused .registerAccessNotAligned32) ∧
    (s.turns = .host (.regWrite off size w) :: rest → step s = .refused .registerAccessNotAligned32)

/-- R61, R62, R65, R70: a host byte write is read back, and changes no other byte and nothing else. -/
def Obligations.HostBufWriteThenRead : Prop :=
  ∀ (s : State) (a : Nat) (b : Byte) (rest : List Turn),
    s.turns = .host (.bufWrite a b) :: .host (.bufRead a) :: rest → s.regs.status.busy = false →
    a < s.cfg.bufSize.toNat →
    ∃ (t : State), s.runsTo 2 t ∧ t.turns = rest ∧ t.log = s.log ++ [.bufRead a b] ∧ t.buf.read a = some b ∧
      (∀ (x : Nat), x ≠ a → t.buf.read x = s.buf.read x) ∧ t.regs = s.regs ∧ t.eng = s.eng ∧ t.todo = s.todo

/-- R65: at and above BUF_SIZE a host read returns 0 and a host write is ignored, while no command runs. While one runs the
model refuses the access, its choice: log 23, stated in BufAccessWhileBusyIsRefused. -/
def Obligations.BufAddressesBeyondStorage : Prop :=
  ∀ (s : State) (a : Nat) (b : Byte) (rest : List Turn), s.regs.status.busy = false → s.cfg.bufSize.toNat ≤ a →
    (s.turns = .host (.bufRead a) :: rest → step s = .next { s with turns := rest, log := s.log ++ [.bufRead a 0] }) ∧
    (s.turns = .host (.bufWrite a b) :: rest → step s = .next { s with turns := rest })

/-- R62, 93_implementation_defined.md I7: no byte is written at power-on; reset changes no byte; a byte nothing has written
faults when the Host reads it and when SEND_PACKET collects it (42_packet_framer.md R185). That it collects its data in the
step that begins its call, before a deadline query, is the model's reading, log 16. Order: log 3. -/
def Obligations.UnwrittenBufByteFaults : Prop :=
  (∀ (a : Nat), State.reset.buf.read a = none) ∧
  (∀ (s : State) (rest : List Turn), s.turns = .reset :: rest →
    ∃ (t : State), step s = .next t ∧ ∀ (a : Nat), t.buf.read a = s.buf.read a) ∧
  (∀ (s : State) (a : Nat) (rest : List Turn),
    s.regs.status.busy = false → a < s.cfg.bufSize.toNat → s.buf.read a = none →
    s.turns = .host (.bufRead a) :: rest → step s = .fault .bufByteNeverWritten) ∧
  (∀ (s : State) (a : Nat),
    s.Inv → s.turns = [] → s.eng.phase = .sp → s.eng.wait = .none → s.todo = [] → a < s.eng.lenL.toNat →
    s.buf.read a = none → step s = .fault .bufByteNeverWritten)

/-- R71, R243, I9: a host BUF access while STATUS.BUSY = 1 is refused. That the window is BUSY = 1 for every command is
log 5's reading; that an address at or above BUF_SIZE is refused too is the model's choice, log 23. -/
def Obligations.BufAccessWhileBusyIsRefused : Prop :=
  ∀ (s : State) (a : Nat) (b : Byte) (rest : List Turn), s.regs.status.busy = true →
    (s.turns = .host (.bufRead a) :: rest → step s = .refused .bufAccessWhileBusy) ∧
    (s.turns = .host (.bufWrite a b) :: rest → step s = .refused .bufAccessWhileBusy)

/-! ### The codecs -/

/-- 40_varlen_codec.md R119: decoding the canonical bytes of x gives x and their number, for every x. -/
def Obligations.VarintRoundTrip : Prop :=
  ∀ x : RemLen, varDecode 0 0 (varEncode x) = some (.done x (BitVec.ofNat 3 (encLen x)))

/-- R115: the length of the canonical encoding. -/
def Obligations.CanonicalLengthBands : Prop :=
  ∀ x : RemLen,
    (x.toNat ≤ 127 → encLen x = 1) ∧ (128 ≤ x.toNat → x.toNat ≤ 16383 → encLen x = 2) ∧
    (16384 ≤ x.toNat → x.toNat ≤ 2097151 → encLen x = 3) ∧ (2097152 ≤ x.toNat → x.toNat ≤ 268435455 → encLen x = 4)

/-- 30_encoding.md R88, R110, R117: a well-formed field decodes to the sum of its groups, least-significant first, with
its own byte count, whatever follows it. -/
def Obligations.DecodedValueIsTheGroupSum : Prop :=
  ∀ (bs more : List Byte), wellFormedField bs →
    ∃ (a : RemLen) (n : Count),
      varDecode 0 0 (bs ++ more) = some (.done a n) ∧ a.toNat = groupSum bs ∧ n.toNat = bs.length

/-- R111: the decoder ends on the first four bytes at the latest, malformed exactly when all four continue. -/
def Obligations.DecoderEndsWithinFourBytes : Prop :=
  ∀ (bs : List Byte), 4 ≤ bs.length →
    varDecode 0 0 bs = varDecode 0 0 (bs.take 4) ∧
    (varDecode 0 0 bs = some .malformed ↔ allContinue (bs.take 4)) ∧
    (varDecode 0 0 bs = some .malformed ∨
      ∃ (a : RemLen) (n : Count), varDecode 0 0 bs = some (.done a n) ∧ 1 ≤ n.toNat ∧ n.toNat ≤ 4)

/-- R114, R116, R118: the encoder's field is well formed; a well-formed field is at least as long as the canonical one of
its value, and is the canonical one if it is as long; the field of 0 is one zero byte. -/
def Obligations.CanonicalEncodingIsShortest : Prop :=
  varEncode 0 = [0x00] ∧
  (∀ (x : RemLen), wellFormedField (varEncode x)) ∧
  (∀ (bs : List Byte), wellFormedField bs → ∃ x : RemLen, x.toNat = groupSum bs ∧ encLen x ≤ bs.length ∧
    (bs.length = encLen x → bs = varEncode x))

/-- 41_header_codec.md R143: packing and unpacking undo each other. -/
def Obligations.HeaderFieldsRoundTrip : Prop :=
  (∀ h : Byte, hdrPack (hdrType h) (hdrFlags h) = h) ∧
  (∀ t f : Nibble, hdrType (hdrPack t f) = t ∧ hdrFlags (hdrPack t f) = f)

/-! ### The commands that complete at once -/

/-- 41_header_codec.md R145: HDR_UNPACK, for every header byte, with its frame. STATUS,
phase and wait are what `finish` writes (60_exceptions.md R205); the framing fields are 0 by 10_state.md R41; that the
latched operands keep their values over `finish` is log 10, and that req does is log 19. -/
def Obligations.HdrUnpackResult : Prop :=
  decode 0x00000003 = .ok .hdrUnpack ∧
  ∀ (s : State), ∃ (t : State), exec .hdrUnpack s = .next t ∧
    t.regs = { s.regs with
      status := .success
      hdr := ⟨s.regs.hdr.byte, s.regs.hdr.byte.extractLsb' 4 4, s.regs.hdr.byte.extractLsb' 0 4⟩ } ∧
    t.eng = { issuedEngine .hdrUnpack s with phase := .idle, wait := .none, op := t.eng.op } ∧ t.todo = [] ∧ SameOutside s t

/-- R148: HDR_PACK, for every TYPE and FLAGS, with its frame. STATUS,
phase and wait are what `finish` writes (60_exceptions.md R205); the framing fields are 0 by 10_state.md R41; that the
latched operands keep their values over `finish` is log 10, and that req does is log 19. -/
def Obligations.HdrPackResult : Prop :=
  decode 0x00000004 = .ok .hdrPack ∧
  ∀ (s : State), ∃ (t : State) (b : Byte), exec .hdrPack s = .next t ∧
    t.regs = { s.regs with status := .success, hdr := { s.regs.hdr with byte := b } } ∧
    b.extractLsb' 4 4 = s.regs.hdr.type ∧ b.extractLsb' 0 4 = s.regs.hdr.flags ∧
    t.eng = { issuedEngine .hdrPack s with phase := .idle, wait := .none, op := t.eng.op } ∧ t.todo = [] ∧ SameOutside s t

/-- 40_varlen_codec.md R125: LEN_ENCODE, for every LEN_VALUE, with its frame. STATUS,
phase and wait are what `finish` writes (60_exceptions.md R205); the framing fields are 0 by 10_state.md R41; that the
latched operands keep their values over `finish` is log 10, and that req does is log 19. -/
def Obligations.LenEncodeResult : Prop :=
  decode 0x00000002 = .ok .lenEncode ∧
  ∀ (s : State), ∃ (t : State) (n : Count) (w : Word), exec .lenEncode s = .next t ∧
    t.regs = { s.regs with
      status := if s.regs.lenValue.toNat ≤ 268435455 then .success else .error .badArgument
      encBytes := w
      lenInfo := { s.regs.lenInfo with encCount := n } } ∧
    (s.regs.lenValue.toNat ≤ 268435455 →
      n.toNat = encLen (s.regs.lenValue.setWidth 28) ∧
      ∀ k < 4, w.extractLsb' (8 * k) 8 = (varEncode (s.regs.lenValue.setWidth 28)).getD k 0) ∧
    (268435455 < s.regs.lenValue.toNat → n = 0 ∧ w = 0) ∧
    t.eng = { issuedEngine .lenEncode s with phase := .idle, wait := .none, op := t.eng.op } ∧ t.todo = [] ∧ SameOutside s t

/-- R125, R120: LEN_ENCODE of any value up to 2^28-1, then LEN_DECODE from a transport that delivers the bytes ENC_BYTES
holds, gives the value back (95_test_vectors.md W1, for every value and with or without a deadline). Order: log 3. -/
def Obligations.EncodeThenDecodeCommands : Prop :=
  ∀ (s : State) (more : List Answer), s.Ready → s.regs.lenValue.toNat ≤ 268435455 →
    ∃ (t0 : State), exec .lenEncode s = .next t0 ∧
      (s.xportAnswers = byteAnswers
          ((List.range t0.regs.lenInfo.encCount.toNat).map (fun k => t0.regs.encBytes.extractLsb' (8 * k) 8)) ++ more →
        s.answersDeadlines t0.regs.lenInfo.encCount.toNat →
        ∃ (t1 : State) (k : Nat) (t : State), exec .lenDecode t0 = .next t1 ∧ t1.runsTo k t ∧ t.regs.status = .success ∧
          t.regs.lenValue = s.regs.lenValue ∧ t.regs.lenInfo.wireCount = t0.regs.lenInfo.encCount ∧
          t.xportAnswers = more)

/-! ### The issue of the commands that make transport calls -/

/-- R120, 10_state.md R26, R38, R41: the issue of LEN_DECODE, with its frame. That req keeps its value is log 19. -/
def Obligations.LenDecodeIssue : Prop :=
  ∀ (s : State), ∃ (t : State), exec .lenDecode s = .next t ∧
    t.regs = { s.regs with
      status := ⟨true, false, false, .none⟩
      lenValue := 0
      lenInfo := { s.regs.lenInfo with wireCount := 0 }
      xportCode := 0 } ∧
    t.eng = { issuedEngine .lenDecode s with phase := .ld, hasL := s.regs.hasDeadline, tokL := s.regs.dlToken } ∧
    t.todo = [] ∧ SameOutside s t

/-- 42_packet_framer.md R170, R26, R38, R41: the issue of READ_PACKET, with its frame. That req keeps its value is log 19. -/
def Obligations.ReadPacketIssue : Prop :=
  ∀ (s : State), ∃ (t : State), exec .readPacket s = .next t ∧
    t.regs = { s.regs with
      status := ⟨true, false, false, .none⟩
      hdr := ⟨0, 0, 0⟩
      lenValue := 0
      lenInfo := ⟨0, 0, 0⟩
      encBytes := 0
      xferCount := 0
      xportCode := 0 } ∧
    t.eng = { issuedEngine .readPacket s with
      phase := .rpHdr, capL := s.regs.cap, hasL := s.regs.hasDeadline, tokL := s.regs.dlToken } ∧
    SameOutside s t

/-- R185, R26, R38, R41: the issue of SEND_PACKET, with its frame. That req keeps its value is log 19. -/
def Obligations.SendPacketIssue : Prop :=
  ∀ (s : State), ∃ (t : State), exec .sendPacket s = .next t ∧
    t.regs = { s.regs with status := ⟨true, false, false, .none⟩, xferCount := 0, xportCode := 0 } ∧
    t.eng = { issuedEngine .sendPacket s with
      phase := .sp, lenL := s.regs.length, hasL := s.regs.hasDeadline, tokL := s.regs.dlToken } ∧
    SameOutside s t

/-- 10_state.md R41: the issue of every command sets the framing fields to 0, and no framing value of an earlier command
reaches the next. -/
def Obligations.NoFramingStateCrossesCommands : Prop :=
  (∀ (i : Instr) (s : State), ∃ (t : State), exec i s = .next t ∧
    t.eng.acc = 0 ∧ t.eng.i = 0 ∧ t.eng.v = 0 ∧ t.eng.off = 0 ∧ t.eng.got = 0) ∧
  ∀ (i : Instr) (s : State) (a : RemLen) (j : Count) (x : RemLen) (o : Count) (g : Word),
    exec i { s with eng := { s.eng with acc := a, i := j, v := x, off := o, got := g } } = exec i s

/-! ### Whole commands -/

/-- R112, R120: LEN_DECODE of any well-formed field, canonical or not, under a deadline or none. Order: log 3. -/
def Obligations.LenDecodeCompletes : Prop :=
  ∀ (s : State) (bs : List Byte) (more : List Answer),
    s.Ready → wellFormedField bs → s.xportAnswers = byteAnswers bs ++ more → s.answersDeadlines bs.length →
    ∃ (t0 : State) (k : Nat) (t : State), exec .lenDecode s = .next t0 ∧ t0.runsTo k t ∧
      t.regs = { s.regs with
        status := .success
        lenValue := BitVec.ofNat 32 (groupSum bs)
        lenInfo := { s.regs.lenInfo with wireCount := BitVec.ofNat 3 bs.length }
        xportCode := 0 } ∧
      (∀ (a : Nat), t.buf.read a = s.buf.read a) ∧ t.eng.phase = .idle ∧ t.xportAnswers = more ∧
      t.deadlineAnswers = s.deadlinesAfter bs.length ∧ t.log = s.log ++ s.calls (List.replicate bs.length byteCall)

/-- 60_exceptions.md R203: four length bytes that all continue end LEN_DECODE and READ_PACKET with MALFORMED_LENGTH, and
no fifth is asked for. Order: log 3. -/
def Obligations.MalformedLengthEndsTheCommand : Prop :=
  (∀ (s : State) (bs : List Byte) (more : List Answer),
    s.Ready → bs.length = 4 → allContinue bs → s.xportAnswers = byteAnswers bs ++ more →
    s.answersDeadlines 4 →
    ∃ (t0 : State) (k : Nat) (t : State), exec .lenDecode s = .next t0 ∧ t0.runsTo k t ∧
      t.regs = { s.regs with
        status := .error .malformedLength
        lenValue := 0
        lenInfo := { s.regs.lenInfo with wireCount := 4 }
        xportCode := 0 } ∧
      (∀ (a : Nat), t.buf.read a = s.buf.read a) ∧ t.eng.phase = .idle ∧ t.xportAnswers = more ∧
      t.log = s.log ++ s.calls (List.replicate 4 byteCall)) ∧
  (∀ (s : State) (h : Byte) (bs : List Byte) (more : List Answer),
    s.Ready → bs.length = 4 → allContinue bs → s.xportAnswers = byteAnswers (h :: bs) ++ more →
    s.answersDeadlines 5 → 1 ≤ s.regs.cap.toNat → s.regs.cap.toNat ≤ s.cfg.bufSize.toNat →
    ∃ (t0 : State) (k : Nat) (t : State), exec .readPacket s = .next t0 ∧ t0.runsTo k t ∧
      t.regs = { s.regs with
        status := .error .malformedLength
        hdr := ⟨h, h.extractLsb' 4 4, h.extractLsb' 0 4⟩
        lenValue := 0
        lenInfo := ⟨4, 0, 0⟩
        encBytes := 0
        xferCount := 0
        xportCode := 0 } ∧
      (∀ (a : Nat),
        t.buf.read a = if a = 0 then some h else s.buf.read a) ∧ t.eng.phase = .idle ∧ t.xportAnswers = more ∧
      t.log = s.log ++ s.calls (List.replicate 5 byteCall))

/-- R113, 42_packet_framer.md R163, R173: a transport failure at a length byte ends LEN_DECODE, and READ_PACKET after its
header byte, with that failure's own code, and WIRE_COUNT keeps the bytes before it. Order: log 3. -/
def Obligations.LenDecodeKeepsTheFailuresCode : Prop :=
  (∀ (s : State) (bs : List Byte) (ans : Answer) (e : ErrCode) (more : List Answer),
    s.Ready → bs.length ≤ 3 → allContinue bs → ans.wf .read = true → readFailure 1 ans = some e →
    s.xportAnswers = byteAnswers bs ++ ans :: more → s.answersDeadlines (bs.length + 1) →
    ∃ (t0 : State) (k : Nat) (t : State), exec .lenDecode s = .next t0 ∧ t0.runsTo k t ∧
      t.regs = { s.regs with
        status := .error e
        lenValue := 0
        lenInfo := { s.regs.lenInfo with wireCount := BitVec.ofNat 3 bs.length }
        xportCode := if ans.st = .err then ans.code else 0 } ∧
      (∀ (a : Nat), t.buf.read a = s.buf.read a) ∧ t.eng.phase = .idle ∧ t.xportAnswers = more ∧
      t.log = s.log ++ s.calls (List.replicate (bs.length + 1) byteCall)) ∧
  (∀ (s : State) (h : Byte) (bs : List Byte) (ans : Answer) (e : ErrCode) (more : List Answer),
    s.Ready → bs.length ≤ 3 → allContinue bs → ans.wf .read = true → readFailure 1 ans = some e →
    1 ≤ s.regs.cap.toNat → s.regs.cap.toNat ≤ s.cfg.bufSize.toNat →
    s.xportAnswers = byteAnswers (h :: bs) ++ ans :: more → s.answersDeadlines (bs.length + 2) →
    ∃ (t0 : State) (k : Nat) (t : State), exec .readPacket s = .next t0 ∧ t0.runsTo k t ∧
      t.regs = { s.regs with
        status := .error e
        hdr := ⟨h, h.extractLsb' 4 4, h.extractLsb' 0 4⟩
        lenValue := 0
        lenInfo := ⟨BitVec.ofNat 3 bs.length, 0, 0⟩
        encBytes := 0
        xferCount := 0
        xportCode := if ans.st = .err then ans.code else 0 } ∧
      (∀ (a : Nat), t.buf.read a = if a = 0 then some h else s.buf.read a) ∧ t.eng.phase = .idle ∧
      t.xportAnswers = more ∧ t.log = s.log ++ s.calls (List.replicate (bs.length + 2) byteCall))

/-- R171: step 0 of READ_PACKET ends the command with no call, no query and no BUF write. That step 0 is the Engine's first
step is the model's choice, log 4. -/
def Obligations.ReadPacketCapacityCheck : Prop :=
  ∀ (s : State), s.Inv → s.regs.status.busy = false →
    (s.cfg.bufSize.toNat < s.regs.cap.toNat →
      ∃ (t0 t : State), exec .readPacket s = .next t0 ∧ engineStep t0 = .next t ∧
        t.regs.status = .error .badArgument ∧ t.eng.phase = .idle ∧ SameOutside s t) ∧
    (s.regs.cap = 0 →
      ∃ (t0 t : State), exec .readPacket s = .next t0 ∧ engineStep t0 = .next t ∧
        t.regs.status = .error .bufferOverflow ∧ t.eng.phase = .idle ∧ SameOutside s t)

/-- R172: a failed header read ends READ_PACKET with its error, BUF not written and HDR 0. Order: log 3. -/
def Obligations.ReadPacketHeaderFailure : Prop :=
  ∀ (s : State) (ans : Answer) (e : ErrCode) (more : List Answer),
    s.Ready → 1 ≤ s.regs.cap.toNat → s.regs.cap.toNat ≤ s.cfg.bufSize.toNat → ans.wf .read = true →
    readFailure 1 ans = some e → s.xportAnswers = ans :: more → s.answersDeadlines 1 →
    ∃ (t0 : State) (k : Nat) (t : State), exec .readPacket s = .next t0 ∧ t0.runsTo k t ∧
      t.regs = { s.regs with
        status := .error e
        hdr := ⟨0, 0, 0⟩
        lenValue := 0
        lenInfo := ⟨0, 0, 0⟩
        encBytes := 0
        xferCount := 0
        xportCode := if ans.st = .err then ans.code else 0 } ∧
      (∀ (a : Nat), t.buf.read a = s.buf.read a) ∧ t.eng.phase = .idle ∧ t.xportAnswers = more ∧
      t.log = s.log ++ s.calls [byteCall]

/-- R63, R172 to R175, R177, R179, R181, R182: READ_PACKET of any packet that fits, its length field canonical or not, its
payload in any chunks: the registers, BUF byte by byte (header, canonical length, payload, nothing beyond), the
calls made and the answers consumed. Order: log 3. -/
def Obligations.ReadPacketStoresThePacket : Prop :=
  ∀ (s : State) (h : Byte) (len : List Byte) (v : RemLen) (chunks : List (List Byte)) (more : List Answer),
    s.Ready → wellFormedField len → v.toNat = groupSum len →
    (∀ c ∈ chunks, c ≠ []) → chunks.flatten.length = v.toNat →
    1 + encLen v + v.toNat ≤ s.regs.cap.toNat → s.regs.cap.toNat ≤ s.cfg.bufSize.toNat →
    s.xportAnswers = byteAnswers (h :: len) ++ chunks.map Answer.okBytes ++ more →
    s.answersDeadlines (1 + len.length + chunks.length) →
    ∃ (t0 : State) (k : Nat) (t : State), exec .readPacket s = .next t0 ∧ t0.runsTo k t ∧
      t.regs = { s.regs with
        status := .success
        hdr := ⟨h, h.extractLsb' 4 4, h.extractLsb' 0 4⟩
        lenValue := v.setWidth 32
        lenInfo := ⟨BitVec.ofNat 3 len.length, BitVec.ofNat 3 (encLen v), BitVec.ofNat 3 (1 + encLen v)⟩
        encBytes := setEncBytes 0 0 (varEncode v)
        xferCount := v.setWidth 32
        xportCode := 0 } ∧
      (∀ (a : Nat),
        t.buf.read a = if a < 1 + encLen v + v.toNat then (h :: varEncode v ++ chunks.flatten)[a]? else s.buf.read a) ∧
      t.eng.phase = .idle ∧ t.xportAnswers = more ∧
      t.deadlineAnswers = s.deadlinesAfter (1 + len.length + chunks.length) ∧
      t.log = s.log ++ s.calls (List.replicate (1 + len.length) byteCall ++ chunkCalls v.toNat chunks)

/-- R174, R176, 60_exceptions.md R204: a packet that does not fit ends READ_PACKET with BUFFER_OVERFLOW and no payload
call; the length bytes are written only if they fit. Order: log 3. -/
def Obligations.ReadPacketOverflow : Prop :=
  ∀ (s : State) (h : Byte) (len : List Byte) (v : RemLen) (more : List Answer),
    s.Ready → wellFormedField len → v.toNat = groupSum len →
    1 ≤ s.regs.cap.toNat → s.regs.cap.toNat ≤ s.cfg.bufSize.toNat →
    (s.regs.cap.toNat < 1 + encLen v ∨ v ≠ 0 ∧ s.regs.cap.toNat < 1 + encLen v + v.toNat) →
    s.xportAnswers = byteAnswers (h :: len) ++ more → s.answersDeadlines (1 + len.length) →
    ∃ (t0 : State) (k : Nat) (t : State), exec .readPacket s = .next t0 ∧ t0.runsTo k t ∧
      t.regs = { s.regs with
        status := .error .bufferOverflow
        hdr := ⟨h, h.extractLsb' 4 4, h.extractLsb' 0 4⟩
        lenValue := v.setWidth 32
        lenInfo := ⟨BitVec.ofNat 3 len.length, BitVec.ofNat 3 (encLen v), BitVec.ofNat 3 (1 + encLen v)⟩
        encBytes := setEncBytes 0 0 (varEncode v)
        xferCount := 0
        xportCode := 0 } ∧
      (∀ (a : Nat), t.buf.read a =
        if a = 0 then some h
        else if a < 1 + encLen v ∧ 1 + encLen v ≤ s.regs.cap.toNat then (varEncode v)[a - 1]?
        else s.buf.read a) ∧
      t.eng.phase = .idle ∧ t.xportAnswers = more ∧
      t.log = s.log ++ s.calls (List.replicate (1 + len.length) byteCall)

/-- R180, R163: a failed payload answer ends READ_PACKET with the failure's code; the payload received before it stays in
BUF with XFER_COUNT its count. Order: log 3. -/
def Obligations.ReadPacketPayloadFailure : Prop :=
  ∀ (s : State) (ans : Answer) (e : ErrCode) (more : List Answer),
    s.Inv → s.turns = [] → s.eng.phase = .rpPay → s.eng.wait = .xport → ans.wf .read = true →
    readFailure s.eng.req.n ans = some e → s.xportAnswers = ans :: more →
    ∃ (k : Nat) (t : State), s.runsTo k t ∧
      t.regs = { s.regs with
        status := .error e
        xportCode := if ans.st = .err then ans.code else s.regs.xportCode } ∧
      t.regs.xferCount = s.eng.got ∧ (∀ (a : Nat), t.buf.read a = s.buf.read a) ∧ t.eng.phase = .idle ∧
      t.xportAnswers = more ∧ t.log = s.log

/-- R166, R186 to R188: SEND_PACKET makes exactly one write call of LENGTH bytes, those of BUF[0 .. LENGTH-1], and passes
the answer on unchanged, whatever its count. Order: log 3; the data is collected when the call begins (log 16). -/
def Obligations.SendPacketMakesOneCall : Prop :=
  ∀ (s : State) (data : List Byte) (ans : Answer) (more : List Answer),
    s.Ready → s.regs.length.toNat ≤ s.cfg.bufSize.toNat → data.length = s.regs.length.toNat →
    (∀ a < data.length, s.buf.read a = data[a]?) → s.xportAnswers = ans :: more → s.answersDeadlines 1 →
    ∃ (t0 : State) (k : Nat) (t : State), exec .sendPacket s = .next t0 ∧ t0.runsTo k t ∧
      t.regs = { s.regs with
        status :=
          (match ans.st with
           | .ok => Status.success
           | .err => Status.error .transportError
           | .tmo => Status.error .timeoutExpired
           | .cls => Status.error .connectionClosed)
        xferCount := if ans.st = .ok then ans.n else 0
        xportCode := if ans.st = .err then ans.code else 0 } ∧
      (∀ (a : Nat), t.buf.read a = s.buf.read a) ∧ t.eng.phase = .idle ∧ t.xportAnswers = more ∧
      t.deadlineAnswers = s.deadlinesAfter 1 ∧ t.log = s.log ++ s.calls [(.write, s.regs.length, data)]

/-- R185: a LENGTH beyond the storage ends SEND_PACKET with BAD_ARGUMENT before any call. That the check is the Engine's
first step is the model's choice, log 4. -/
def Obligations.SendPacketLengthCheck : Prop :=
  ∀ (s : State), s.Inv → s.regs.status.busy = false → s.cfg.bufSize.toNat < s.regs.length.toNat →
    ∃ (t0 t : State), exec .sendPacket s = .next t0 ∧ engineStep t0 = .next t ∧
      t.regs = { s.regs with status := .error .badArgument, xferCount := 0, xportCode := 0 } ∧ t.eng.phase = .idle ∧
      SameOutside s t

/-! ### The ports -/

/-- R161, R162: a transport call begins with a query of the latched token if a deadline was latched, and else with the
request itself, unbounded. Order: log 3; that this is one step: log 4; that req keeps its value over the query: log 19. -/
def Obligations.CallBeginsWithItsTimeout : Prop :=
  ∀ (s : State) (d : Dir) (n : Word) (data : List Byte),
    s.turns = [] → s.eng.phase ≠ .idle → s.eng.wait = .none → s.todo = [] → plan s = .call d n data →
    (s.eng.hasL = true →
      step s = .next { s with eng := { s.eng with wait := .timer }, log := s.log ++ [.query s.eng.tokL] }) ∧
    (s.eng.hasL = false →
      step s = .next { s with
        eng := { s.eng with wait := .xport, req := ⟨d, n, 0xFFFFFFFF, data⟩ }
        log := s.log ++ [.request ⟨d, n, 0xFFFFFFFF, data⟩] })

/-- R161, R202: the DeadlineSource's answer, 0 among them, becomes the request's TIMEOUT verbatim; the Engine itself never
decides that a deadline has expired. Order: log 3; the number of steps: log 4. -/
def Obligations.DeadlineAnswerIsPassedOn : Prop :=
  ∀ (s : State) (ms : Word) (more : List Word) (d : Dir) (n : Word) (data : List Byte),
    s.Inv → s.turns = [] → s.eng.wait = .timer → s.deadlineAnswers = ms :: more →
    plan s = .call d n data →
    s.runsTo 2 { s with
      eng := { s.eng with wait := .xport, req := ⟨d, n, ms, data⟩ }
      deadlineAnswers := more
      log := s.log ++ [.request ⟨d, n, ms, data⟩] }

/-- 70_reset_and_hazards.md R231: reset abandons what is in flight; an answer that arrives while the Engine waits for
nothing is discarded. Of an abandoned request's answer that arrives when a new request is in flight it says nothing
(log 22). -/
def Obligations.StrayAnswersAreDiscarded : Prop :=
  (∀ (s : State) (rest : List Turn), s.turns = .reset :: rest → ∃ (t : State), step s = .next t ∧ t.eng.wait = .none) ∧
  (∀ (s : State) (ans : Answer) (more : List Answer) (rest : List Turn),
    s.turns = .transport :: rest → s.eng.wait = .none → s.xportAnswers = ans :: more →
    step s = .next { s with turns := rest, xportAnswers := more }) ∧
  (∀ (s : State) (ms : Word) (more : List Word) (rest : List Turn),
    s.turns = .deadlineSource :: rest → s.eng.wait = .none → s.deadlineAnswers = ms :: more →
    step s = .next { s with turns := rest, deadlineAnswers := more })

/-- R163, R201, R202, R206, R208, R209: a failed answer to a read ends the command, within two more Engine steps, with its
code; XPORT_CODE is written for ERR alone, nothing else is, and no further call is made. Order: log 3; the number of steps
is one per write, the model's choice, log 4. The Engine's fields after `finish` are R205's (phase and wait); that op and
the latched operands keep their values in IDLE is log 10, and that req does is log 19. -/
def Obligations.FailedReadAnswerEndsTheCommand : Prop :=
  ∀ (s : State) (ans : Answer) (more : List Answer),
    s.Inv → s.turns = [] → s.eng.wait = .xport → s.eng.req.dir = .read → s.xportAnswers = ans :: more →
    (ans.st = .err → s.runsTo 3 { s with
      regs := { s.regs with status := .error .transportError, xportCode := ans.code }
      eng := { s.eng with phase := .idle, wait := .none }, xportAnswers := more }) ∧
    (ans.st = .tmo → s.runsTo 2 { s with
      regs := { s.regs with status := .error .timeoutExpired }
      eng := { s.eng with phase := .idle, wait := .none }, xportAnswers := more }) ∧
    (ans.st = .cls → s.runsTo 2 { s with
      regs := { s.regs with status := .error .connectionClosed }
      eng := { s.eng with phase := .idle, wait := .none }, xportAnswers := more }) ∧
    (ans.st = .ok → ans.rdata.length = ans.n.toNat → ans.n = 0 ∨ s.eng.req.n.toNat < ans.n.toNat → s.runsTo 2 { s with
      regs := { s.regs with status := .error .xportContract }
      eng := { s.eng with phase := .idle, wait := .none }, xportAnswers := more })

/-- R230: reset. Every offset of the register space reads 0, the Engine is idle with every internal field 0, a running
command is abandoned, and BUF is not changed. -/
def Obligations.ResetClearsAllButBuf : Prop :=
  ∀ (s : State) (rest : List Turn), s.turns = .reset :: rest →
    ∃ (t : State), step s = .next t ∧ (∀ (off : BitVec 8), t.regs.readAt off = 0) ∧
      t.regs.status = ⟨false, false, false, .none⟩ ∧
      t.eng = ⟨.idle, .none, 0, 0, 0, 0, false, 0, 0, 0, 0, 0, t.eng.req⟩ ∧ t.eng.req.dir.bit = 0 ∧ t.eng.req.n = 0 ∧
      t.eng.req.timeout = 0 ∧ t.todo = [] ∧
      (∀ (a : Nat), t.buf.read a = s.buf.read a) ∧ t.cfg = s.cfg

/-- 42_packet_framer.md R168, 60_exceptions.md R212, R220: with no turn given and no answer to come, a waiting Engine stays
busy for ever, and an idle one does nothing. That such a machine steps to itself is log 6. -/
def Obligations.WaitingAndIdleChangeNothing : Prop :=
  (∀ (s : State) (k : Nat), s.Inv → s.turns = [] → s.eng.wait = .xport → s.xportAnswers = [] →
    s.runsTo k s ∧ s.regs.status.busy = true) ∧
  (∀ (s : State) (k : Nat), s.Inv → s.turns = [] → s.eng.wait = .timer → s.deadlineAnswers = [] →
    s.runsTo k s ∧ s.regs.status.busy = true) ∧
  (∀ (s : State) (k : Nat), s.Ready → s.runsTo k s)

/-! ### Rules of the whole machine -/

/-- 10_state.md R44: the invariant holds after reset. -/
def Obligations.InvariantAtReset : Prop := State.reset.Inv

/-- R25, R32, R38, R39, R61, R117, R161, R162, R171, R176: every step of every agent keeps the invariant. -/
def Obligations.EveryStepKeepsTheInvariant : Prop :=
  ∀ (s t : State), s.Inv → step s = .next t → t.Inv

/-- 20_memory.md R61, R62: the Engine never accesses an address outside BUF; the one fault left is the read of a byte
nothing has written, by the Host or by SEND_PACKET. -/
def Obligations.OnlyUnwrittenReadsFault : Prop :=
  ∀ (s : State) (f : Fault), s.Inv → step s = .fault f →
    f = .bufByteNeverWritten ∧
    ((∃ (a : Nat) (rest : List Turn),
      s.turns = .host (.bufRead a) :: rest ∧ a < s.cfg.bufSize.toNat ∧ s.buf.read a = none) ∨
      s.eng.phase = .sp ∧ ∃ a < s.eng.lenL.toNat, a < s.cfg.bufSize.toNat ∧ s.buf.read a = none)

/-- R64, R71, R91: what a refusal means. That a BUF access is refused whenever BUSY = 1 and at any address is log 5 and
log 23; that an OK answer to a read whose data is not the N bytes it announces is refused is the model's reading, log 8. -/
def Obligations.OnlyInterfaceViolationsAreRefused : Prop :=
  ∀ (s : State) (r : Refusal), step s = .refused r →
    (r = .registerAccessNotAligned32 ∧
      ∃ (a : HostAccess) (rest : List Turn), s.turns = .host a :: rest ∧ a.wf = false) ∨
    (r = .bufAccessWhileBusy ∧ s.regs.status.busy = true ∧
      ∃ (a : Nat) (b : Byte) (rest : List Turn),
        s.turns = .host (.bufRead a) :: rest ∨ s.turns = .host (.bufWrite a b) :: rest) ∨
    (r = .answerOutsidePortEncoding ∧ s.eng.wait = .xport ∧ s.eng.req.dir = .read ∧
      ∃ (ans : Answer) (more : List Answer),
        s.xportAnswers = ans :: more ∧ ans.st = .ok ∧ ans.rdata.length ≠ ans.n.toNat)

/-- R61, R178: while READ_PACKET runs no byte at or above the latched capacity changes. -/
def Obligations.CapacityBoundsBufWrites : Prop :=
  ∀ (s t : State) (a : Nat),
    s.Inv → s.eng.phase.reading = true → s.eng.capL.toNat ≤ a → step s = .next t → t.buf.read a = s.buf.read a

/-- 30_encoding.md R84: BUF changes only by a host byte write while no command runs or by READ_PACKET. -/
def Obligations.OnlyHostAndReadPacketWriteBuf : Prop :=
  ∀ (s t : State) (a : Nat), s.Inv → step s = .next t → t.buf.read a ≠ s.buf.read a →
    (∃ (b : Byte) (rest : List Turn),
      s.turns = .host (.bufWrite a b) :: rest ∧ s.regs.status.busy = false ∧ t.buf.read a = some b) ∨
    s.eng.phase.reading = true

/-- 42_packet_framer.md R177: no read request asks for 0 bytes. -/
def Obligations.NoEmptyReadRequest : Prop :=
  ∀ (s t : State) (r : Request),
    s.Inv → step s = .next t → t.log = s.log ++ [.request r] → r.dir = .read → 1 ≤ r.n.toNat

/-- 00_scope.md R8: something goes to the Transport or the DeadlineSource only while the Engine waits for neither, and
from then on it waits for exactly that answer. -/
def Obligations.OneRequestInFlight : Prop :=
  ∀ (s t : State), s.Inv → step s = .next t →
    t.log = s.log ∨
    (∃ (off : BitVec 8) (v : Word), t.log = s.log ++ [.regRead off v]) ∨
    (∃ (a : Nat) (b : Byte), t.log = s.log ++ [.bufRead a b]) ∨
    (t.log = s.log ++ [.query s.eng.tokL] ∧ s.eng.wait = .none ∧ t.eng.wait = .timer) ∨
    (∃ (r : Request), t.log = s.log ++ [.request r] ∧ s.eng.wait = .none ∧ t.eng.wait = .xport ∧ t.eng.req = r)

/-- 20_memory.md R72 (b), R74: while a command runs, nothing but reset changes the operands it latched or the operand
registers. The step may be the command's last, whose `finish` writes STATUS, phase and wait (60_exceptions.md R205); that
op and the latched operands keep their values over it is the model's reading, log 10. -/
def Obligations.LatchedOperandsAreFixed : Prop :=
  ∀ (s t : State), s.Inv → s.regs.status.busy = true →
    (∀ (rest : List Turn), s.turns ≠ .reset :: rest) → step s = .next t →
    (t.eng.op = s.eng.op ∧ t.eng.capL = s.eng.capL ∧ t.eng.lenL = s.eng.lenL ∧ t.eng.tokL = s.eng.tokL ∧
      t.eng.hasL = s.eng.hasL) ∧
    (t.regs.cap = s.regs.cap ∧ t.regs.length = s.regs.length ∧ t.regs.dlToken = s.regs.dlToken ∧
      t.regs.hasDeadline = s.regs.hasDeadline)

/-- 60_exceptions.md R211: while no command runs, STATUS and every result register persist until the Host writes a
register or the block is reset. -/
def Obligations.ResultsPersistWhileIdle : Prop :=
  ∀ (s t : State), s.Inv → s.regs.status.busy = false → (∀ (rest : List Turn), s.turns ≠ .reset :: rest) →
    (∀ (off : BitVec 8) (size : Nat) (w : Word) (rest : List Turn),
      s.turns ≠ .host (.regWrite off size w) :: rest) → step s = .next t → t.regs = s.regs

/-- 10_state.md R26: STATUS changes only by a CMD write while idle, by `finish` while a command runs, or by reset. -/
def Obligations.StatusHasThreeWriters : Prop :=
  ∀ (s t : State), s.Inv → step s = .next t → t.regs.status ≠ s.regs.status →
    (∃ (w : Word) (rest : List Turn), s.turns = .host (cmdAccess w) :: rest ∧ s.regs.status.busy = false) ∨
    (s.regs.status.busy = true ∧ t.eng.phase = .idle ∧
      ∃ (c : ErrCode), t.regs.status = ⟨false, true, c != ErrCode.none, c⟩) ∨
    (∃ (rest : List Turn), s.turns = .reset :: rest)

/-! ### The Host's address space -/

/-- 20_memory.md R77, R60, 10_state.md R20: with REG_BASE and BUF_BASE whatever the platform gives, the 256 offsets of the
register space and the BUF_SIZE bytes of BUF stand in order from them in the Host's address space, and no other address is
one of them. That the bases and the addresses are natural numbers is the model's choice, log 15. -/
def Obligations.HostAddressesFromTheBases : Prop :=
  ∀ (c : Config),
    (∀ (addr : Nat) (off : BitVec 8), regOffset c addr = some off ↔ addr = c.regBase + off.toNat) ∧
    (∀ (addr a : Nat), bufIndex c addr = some a ↔ addr = c.bufBase + a ∧ a < c.bufSize.toNat) ∧
    (∀ (off : BitVec 8) (size : Nat) (w : Word),
      regOffset c ((HostAccess.regRead off size).addr c) = some off ∧
      regOffset c ((HostAccess.regWrite off size w).addr c) = some off) ∧
    (∀ (a : Nat) (b : Byte), a < c.bufSize.toNat →
      bufIndex c ((HostAccess.bufRead a).addr c) = some a ∧ bufIndex c ((HostAccess.bufWrite a b).addr c) = some a)
end

