-- ==== Sys2Proof/Laws/Codec.lean ====
section
/-! SUPPORT. Small facts of the varint codec that the framer's laws rest on. -/

namespace Sys2Proof.Machine

/-- The encoder emits 1 to 4 bytes (40_varlen_codec.md R114). -/
theorem encLen_bounds (x : RemLen) : 1 ≤ encLen x ∧ encLen x ≤ 4 := by
  simp only [encLen, varEncode, varEncodeLoop]
  split_ifs <;> simp

/-- The decoder's accumulator with one more group, below the bound that many groups allow (R117). -/
theorem or_group_lt {acc : RemLen} {i : Nat} {g : BitVec 7} (ha : acc.toNat < 2 ^ (7 * i)) :
    (acc ||| (g.setWidth 28 <<< (7 * i))).toNat < 2 ^ (7 * (i + 1)) := by
  have hg : g.toNat < 2 ^ 7 := g.isLt
  have hp : 2 ^ (7 * (i + 1)) = 2 ^ 7 * 2 ^ (7 * i) := by rw [← pow_add]; ring_nf
  rw [BitVec.toNat_or]
  refine Nat.or_lt_two_pow (ha.trans (Nat.pow_lt_pow_right (by norm_num) (by omega))) ?_
  refine lt_of_le_of_lt (b := g.toNat * 2 ^ (7 * i)) ?_ ?_
  · rw [BitVec.toNat_shiftLeft, Nat.shiftLeft_eq]
    refine (Nat.mod_le _ _).trans (Nat.mul_le_mul_right _ ?_)
    rw [BitVec.toNat_setWidth]; exact Nat.mod_le _ _
  · rw [hp]; exact Nat.mul_lt_mul_of_pos_right hg (by positivity)

/-- Everything a decoder step that asks for another byte says (R110). -/
theorem varDecStep_more {acc : RemLen} {i : Count} {b : Byte} {a : RemLen} {n : Count} (hi : i.toNat ≤ 3)
    (ha : acc.toNat < 2 ^ (7 * i.toNat)) (h : varDecStep acc i b = .more a n) :
    contBit b = true ∧ n = i + 1 ∧ (i + 1).toNat = i.toNat + 1 ∧ i.toNat + 1 ≤ 3 ∧
      a.toNat < 2 ^ (7 * (i.toNat + 1)) := by
  unfold varDecStep at h
  simp only at h
  split_ifs at h with h1 h2
  cases h
  have hn : (i + 1).toNat = i.toNat + 1 := by rw [BitVec.toNat_add]; simp; omega
  have h4 : i.toNat ≠ 3 := fun e => h2 (BitVec.eq_of_toNat_eq (by rw [hn, e]; rfl))
  exact ⟨by simpa using h1, rfl, hn, by omega, or_group_lt ha⟩

end Sys2Proof.Machine
end

