-- ==== Sys2Proof/Laws/Memory.lean ====
section
/-! SUPPORT. The packet buffer: read after write, and that a write keeps the canonical form. -/

namespace Sys2Proof.Machine

@[simp] theorem Memory.read_nil (a : Nat) : Memory.read [] a = none := rfl

theorem Memory.read_cons (k : Nat) (c : Byte) (m : Memory) (a : Nat) :
    Memory.read ((k, c) :: m) a = if k = a then some c else Memory.read m a := rfl

/-- Reading after a write gives the byte written there, and elsewhere what was read before. -/
@[simp] theorem Memory.read_write (m : Memory) (a : Nat) (b : Byte) (x : Nat) :
    Memory.read (Memory.write m a b) x = if x = a then some b else Memory.read m x := by
  induction m with
  | nil => simp [Memory.write, Memory.read_cons, eq_comm]
  | cons kc m ih =>
    obtain ⟨k, c⟩ := kc
    unfold Memory.write
    by_cases h1 : a < k
    · simp [h1, Memory.read_cons, eq_comm]
    · by_cases h2 : a = k
      · subst h2
        by_cases hx : x = a
        · simp [Memory.read_cons, hx]
        · simp [Memory.read_cons, hx, Ne.symm hx]
      · by_cases hk : k = x
        · subst hk
          simp [h1, h2, Memory.read_cons, Ne.symm h2]
        · simp [h1, h2, Memory.read_cons, hk, ih]

/-- A write adds no address but its own. -/
theorem Memory.mem_write {m : Memory} {a : Nat} {b : Byte} {c : Host.Cell} (h : c ∈ Memory.write m a b) :
    c = (a, b) ∨ c ∈ m := by
  induction m with
  | nil => exact .inl (by simpa [Memory.write] using h)
  | cons kc m ih =>
    obtain ⟨k, d⟩ := kc
    unfold Memory.write at h
    split_ifs at h with h1 h2
    · simpa using h
    · simp only [List.mem_cons] at h ⊢; tauto
    · simp only [List.mem_cons] at h ⊢
      rcases h with h | h
      · exact .inr (.inl h)
      · exact (ih h).imp id .inr

/-- A write keeps the canonical form. -/
theorem Memory.wf_write {m : Memory} (h : Memory.wf m) (a : Nat) (b : Byte) : Memory.wf (Memory.write m a b) := by
  induction m with
  | nil => simp [Memory.write, Memory.wf]
  | cons kc m ih =>
    obtain ⟨k, d⟩ := kc
    have hm : ∀ c ∈ m, k < c.1 := fun c hc => (List.pairwise_cons.1 h).1 c hc
    have hw : Memory.wf m := (List.pairwise_cons.1 h).2
    unfold Memory.write
    split_ifs with h1 h2
    · refine List.pairwise_cons.2 ⟨fun c hc => ?_, h⟩
      rcases List.mem_cons.1 hc with rfl | hc
      · exact h1
      · exact h1.trans (hm c hc)
    · subst h2; exact List.pairwise_cons.2 ⟨hm, hw⟩
    · refine List.pairwise_cons.2 ⟨fun c hc => ?_, ih hw⟩
      rcases Memory.mem_write hc with rfl | hc
      · show k < a; omega
      · exact hm c hc

/-- A write inside the storage keeps every address inside it. -/
theorem Memory.write_below {m : Memory} {n a : Nat} (h : ∀ c ∈ m, c.1 < n) (ha : a < n) (b : Byte) :
    ∀ c ∈ Memory.write m a b, c.1 < n := by
  intro c hc
  rcases Memory.mem_write hc with rfl | hc
  · exact ha
  · exact h c hc

/-- A range read answers n bytes, byte j of it the byte at a + j. -/
theorem Memory.readRange_spec {m : Memory} {a n : Nat} {bs : List Byte} (h : Memory.readRange m a n = some bs) :
    bs.length = n ∧ ∀ j < n, Memory.read m (a + j) = bs[j]? := by
  induction n generalizing a bs with
  | zero => simp only [Memory.readRange, Option.some.injEq] at h; subst h; simp
  | succ n ih =>
    unfold Memory.readRange at h
    split at h
    · rename_i b cs hb hcs
      cases h
      obtain ⟨hl, hr⟩ := ih hcs
      refine ⟨by simp [hl], fun j hj => ?_⟩
      cases j with
      | zero => simpa using hb
      | succ j => simpa [Nat.add_assoc, Nat.add_comm 1 j] using hr j (by omega)
    · cases h

/-- A range read has no answer exactly when some byte of it has no value. -/
theorem Memory.readRange_none {m : Memory} {a n : Nat} :
    Memory.readRange m a n = none ↔ ∃ j < n, Memory.read m (a + j) = none := by
  induction n generalizing a with
  | zero => simp [Memory.readRange]
  | succ n ih =>
    unfold Memory.readRange
    constructor
    · intro h
      cases hb : Memory.read m a with
      | none => exact ⟨0, by omega, by simpa using hb⟩
      | some b =>
        cases hr : Memory.readRange m (a + 1) n with
        | none =>
          obtain ⟨j, hj, hn⟩ := ih.1 hr
          exact ⟨j + 1, by omega, by simpa [Nat.add_assoc, Nat.add_comm 1 j] using hn⟩
        | some bs => simp [hb, hr] at h
    · rintro ⟨j, hj, hn⟩
      cases j with
      | zero => simp at hn; simp [hn]
      | succ j =>
        have : Memory.readRange m (a + 1) n = none :=
          ih.2 ⟨j, by omega, by simpa [Nat.add_assoc, Nat.add_comm 1 j] using hn⟩
        simp [this]

end Sys2Proof.Machine
end

