-- ==== Sys2Proof/Laws/Ops.lean ====
section
/-! SUPPORT. What the shared operations can do, said once each; and how runs are taken apart. -/

namespace Sys2Proof.Machine

/-! ### Steps -/

/-- With a turn given, that agent acts. -/
theorem step_turn {s : State} {t : Turn} {rest : List Turn} (h : s.turns = t :: rest) :
    step s = turnStep t { s with turns := rest } := by simp only [step, h]

/-- With no turn given, whoever has a step to take takes it. -/
theorem step_default {s : State} (h : s.turns = []) : step s = defaultStep s := by simp only [step, h]

/-- No step at all. -/
theorem State.runsTo_zero (s : State) : s.runsTo 0 s := rfl

/-- One step, then the others. -/
theorem State.runsTo_succ {s t : State} {k : Nat} : s.runsTo (k + 1) t ↔ ∃ u, step s = .next u ∧ u.runsTo k t := by
  simp only [State.runsTo, Host.Core.run]
  constructor
  · intro h
    split at h
    · rename_i u hu
      exact ⟨u, hu, h⟩
    · cases h
    · cases h
  · rintro ⟨u, hu, h⟩
    have hu' : Sys2Proof.core.step s = .next u := hu
    rw [hu']
    exact h

/-- Runs join. -/
theorem State.runsTo_add {s t u : State} {j k : Nat} (h : s.runsTo j t) (h' : t.runsTo k u) : s.runsTo (j + k) u := by
  induction j generalizing s with
  | zero => cases h; simpa using h'
  | succ j ih =>
    obtain ⟨v, hv, hr⟩ := State.runsTo_succ.1 h
    rw [Nat.succ_add]
    exact State.runsTo_succ.2 ⟨v, hv, ih hr⟩

/-! ### The operations of the commands -/

/-- Step 0 of READ_PACKET ends the command or leaves a capacity between 1 and BUF_SIZE (42_packet_framer.md R171). -/
theorem capOps_cases (a b : Word) :
    (∃ c, capOps a b = [.finish c]) ∨ (capOps a b = [] ∧ 1 ≤ a.toNat ∧ a.toNat ≤ b.toNat) := by
  unfold capOps
  split_ifs with h1 h2
  · exact .inl ⟨_, rfl⟩
  · exact .inl ⟨_, rfl⟩
  · have : a.toNat ≠ 0 := fun e => h2 (BitVec.eq_of_toNat_eq e)
    refine .inr ⟨rfl, by omega, ?_⟩
    simpa [BitVec.lt_def] using h1

/-- The length check of SEND_PACKET ends the command or leaves a length of at most BUF_SIZE (R185). -/
theorem lenOps_cases (a b : Word) : (∃ c, lenOps a b = [.finish c]) ∨ (lenOps a b = [] ∧ a.toNat ≤ b.toNat) := by
  unfold lenOps
  split_ifs with h1
  · exact .inl ⟨_, rfl⟩
  · exact .inr ⟨rfl, by simpa [BitVec.lt_def] using h1⟩

/-- A failed answer writes XPORT_CODE at most, and ends the command (R163). -/
theorem failOps_shape (a : Answer) (e : ErrCode) :
    failOps a e = [.setXportCode a.code, .finish e] ∨ failOps a e = [.finish e] := by
  unfold failOps; cases a.st <;> simp

/-- An answer to a write writes one register at most, and ends the command (R166). -/
theorem writeOps_shape (a : Answer) :
    (∃ op e, writeOps a = [op, .finish e] ∧ ∀ s, op.legal s = true ∧ op.isSend = false) ∨
    ∃ e, writeOps a = [.finish e] := by
  unfold writeOps failOps
  cases a.st
  · exact .inl ⟨_, _, rfl, fun _ => ⟨rfl, rfl⟩⟩
  · exact .inl ⟨_, _, rfl, fun _ => ⟨rfl, rfl⟩⟩
  · exact .inr ⟨_, rfl⟩
  · exact .inr ⟨_, rfl⟩

/-- A read that succeeds delivers at least one byte and at most as many as were asked for (R163). -/
theorem readResult_ok {a : Answer} {n bs} (hwf : a.wf .read = true) (h : readResult a n = .ok bs) :
    bs = a.rdata ∧ bs.length = a.n.toNat ∧ 1 ≤ bs.length ∧ bs.length ≤ n.toNat := by
  unfold readResult at h
  split at h
  · rename_i hst
    split_ifs at h with hc
    cases h
    simp only [Answer.wf, hst, beq_iff_eq] at hwf
    obtain ⟨c1, c2⟩ := hc
    have c1' : 1 ≤ a.n.toNat := c1
    have c2' : a.n.toNat ≤ n.toNat := c2
    exact ⟨rfl, hwf, by omega, by omega⟩
  all_goals cases h

/-- SEND_PACKET writes and every other call reads; a payload call asks for exactly what is missing (R179, R188). -/
theorem plan_dir {s : State} {d n data} (h : plan s = .call d n data) : (d = .write ↔ s.eng.phase = .sp) ∧
   (s.eng.phase = .rpPay → s.eng.got.toNat < s.eng.v.toNat ∧ n = s.eng.v.setWidth 32 - s.eng.got) := by
  unfold plan at h
  split at h <;> rename_i hp
  · cases h
  · cases h; simp [hp]
  · cases h; simp [hp]
  · cases h; simp [hp]
  · split_ifs at h with hlt
    cases h
    simp [hp]
    simp [BitVec.lt_def] at hlt
    have := s.eng.v.isLt
    omega
  · split at h <;> cases h
    simp [hp]

/-- ENC_COUNT and OFFSET do not wrap (10_state.md R32). -/
theorem count_encLen (v : RemLen) : (encCount v).toNat = encLen v ∧ (1 + encCount v).toNat = 1 + encLen v := by
  have := encLen_bounds v
  rw [encCount, BitVec.toNat_add]
  simp; omega

/-- Everything that can follow the decoded length: overflow, the encoded bytes and the end, or the payload phase
(R174 to R178). -/
theorem storeOps_cases (capL : Word) (v : RemLen) :
   storeOps capL (varEncode v) v = [.finish .bufferOverflow] ∨
   (1 + encLen v ≤ capL.toNat ∧ ∃ c, storeOps capL (varEncode v) v = memWriteOps 1 (varEncode v) ++ [.finish c]) ∨
   (1 + encLen v + v.toNat ≤ capL.toNat ∧ v ≠ 0 ∧
       storeOps capL (varEncode v) v = memWriteOps 1 (varEncode v) ++ [.setPhase .rpPay]) := by
  unfold storeOps payloadOps
  simp only [← encLen.eq_1]
  split_ifs with c1 c2 c3
  · exact .inl rfl
  · exact .inr (.inl ⟨by omega, _, rfl⟩)
  · exact .inr (.inl ⟨by omega, _, rfl⟩)
  · exact .inr (.inr ⟨by omega, c2, rfl⟩)

/-- Writing ENC_BYTES leaves the Engine's fields. -/
theorem encByteOps_settleEngine (e : Engine) (k bs ops) :
    settleEngine (encByteOps k bs ++ ops) e = settleEngine ops e := by
  induction bs generalizing k with
  | nil => rfl
  | cons b bs ih => exact ih (k+1)

/-- Writing BUF leaves the Engine's fields. -/
theorem memWriteOps_settleEngine (e : Engine) (k bs ops) :
    settleEngine (memWriteOps k bs ++ ops) e = settleEngine ops e := by
  induction bs generalizing k with
  | nil => rfl
  | cons b bs ih => exact ih (k+1)

/-- Writing BUF leaves the registers. -/
theorem memWriteOps_settleRegs (e : Regs) (k bs ops) : settleRegs (memWriteOps k bs ++ ops) e = settleRegs ops e := by
  induction bs generalizing k with
  | nil => rfl
  | cons b bs ih => exact ih (k+1)

/-- Writing the bytes one by one is writing them all. -/
theorem encByteOps_settleRegs (r : Regs) (k bs ops) : settleRegs (encByteOps k bs ++ ops) r =
    settleRegs ops { r with encBytes := setEncBytes r.encBytes k bs } := by
  induction bs generalizing k r with
  | nil => rfl
  | cons b bs ih => exact ih _ (k+1)

/-- Which addresses a run of BUF writes touches. -/
theorem mem_memWriteOps {op : Micro} {k bs} (h : op ∈ memWriteOps k bs) :
    ∃ a b, op = .memWrite a b ∧ k ≤ a ∧ a < k + bs.length := by
  induction bs generalizing k with
  | nil => cases h
  | cons b bs ih =>
    rcases List.mem_cons.1 h with rfl | h
    · exact ⟨k, b, rfl, le_rfl, by simp⟩
    · obtain ⟨a, b, h1, h2, h3⟩ := ih h
      exact ⟨a, b, h1, by omega, by simp; omega⟩

/-- A run of ENC_BYTES writes holds nothing else. -/
theorem mem_encByteOps {op : Micro} {k bs} (h : op ∈ encByteOps k bs) : ∃ a b, op = .setEncByte a b := by
  induction bs generalizing k with
  | nil => cases h
  | cons b bs ih =>
    rcases List.mem_cons.1 h with rfl | h
    · exact ⟨k, b, rfl⟩
    · exact ih h

/-- `finish` leaves a legal STATUS (R25, R205). -/
theorem legal_finished (c : ErrCode) : (Status.finished c).legal = true := by cases c <;> rfl

/-- Only `finish` changes `wait`. -/
theorem onEngine_wait {op : Micro} (e : Engine) (hf : ∀ c, op ≠ .finish c) : (onEngine op e).wait = e.wait := by
  cases op <;> first | rfl | exact absurd rfl (hf _)

/-- Only `finish` changes STATUS. -/
theorem onRegs_status {op : Micro} (r : Regs) (hf : ∀ c, op ≠ .finish c) : (onRegs op r).status = r.status := by
  cases op <;> first | rfl | exact absurd rfl (hf _)

/-- Only READ_PACKET changes phase, and within its own. -/
theorem onEngine_phase {op : Micro} {s : State} (hop : op.legal s = true) (hf : ∀ c, op ≠ .finish c) :
    (onEngine op s.eng).phase = s.eng.phase ∨
        (s.eng.phase.reading = true ∧ (onEngine op s.eng).phase.reading = true) := by
  cases op with
  | setPhase p => exact .inr (by simpa [Micro.legal, onEngine] using hop)
  | finish c => exact absurd rfl (hf c)
  | _ => exact .inl rfl

/-- No write changes `op`. -/
theorem onEngine_op (op : Micro) (e : Engine) : (onEngine op e).op = e.op := by cases op <;> rfl

/-- A legal write leaves LEN_INFO legal (R32). -/
theorem onRegs_lenInfo_legal {op : Micro} {s : State} {r : Regs} (hop : op.legal s = true)
    (h : r.lenInfo.legal = true) : (onRegs op r).lenInfo.legal = true := by
  cases op <;> first | exact h | (simp only [LenInfo.legal, onRegs, Micro.legal, Bool.and_eq_true,
      decide_eq_true_eq] at h hop ⊢; simp only [h, hop, decide_true, and_self])

/-- READ_PACKET's phases belong to it. -/
theorem reading_opcode {p : Phase} (h : p.reading = true) :
    p.opcode = some Instr.readPacket.opcode := by cases p <;> first | rfl | exact absurd h (by decide)

/-- READ_PACKET's phases are not IDLE. -/
theorem reading_ne {p : Phase} (h : p.reading = true) : p ≠ .idle := by rintro rfl; exact absurd h (by decide)

end Sys2Proof.Machine
end

