-- ==== Sys2Proof/Laws/State.lean ====
section
/-! SUPPORT. One lemma per field for each named update of the state. -/

namespace Sys2Proof.Machine

/-! ### finish -/

@[simp] theorem finish_cfg (c : ErrCode) (s : State) : (finish c s).cfg = s.cfg := rfl
@[simp] theorem finish_buf (c : ErrCode) (s : State) : (finish c s).buf = s.buf := rfl
@[simp] theorem finish_todo (c : ErrCode) (s : State) : (finish c s).todo = [] := rfl
@[simp] theorem finish_turns (c : ErrCode) (s : State) : (finish c s).turns = s.turns := rfl
@[simp] theorem finish_xportAnswers (c : ErrCode) (s : State) : (finish c s).xportAnswers = s.xportAnswers := rfl
@[simp] theorem finish_deadlineAnswers (c : ErrCode) (s : State) : (finish c s).deadlineAnswers = s.deadlineAnswers := rfl
@[simp] theorem finish_log (c : ErrCode) (s : State) : (finish c s).log = s.log := rfl
@[simp] theorem finish_regs_status (c : ErrCode) (s : State) : (finish c s).regs.status = Status.finished c := rfl
@[simp] theorem finish_regs_cap (c : ErrCode) (s : State) : (finish c s).regs.cap = s.regs.cap := rfl
@[simp] theorem finish_regs_length (c : ErrCode) (s : State) : (finish c s).regs.length = s.regs.length := rfl
@[simp] theorem finish_regs_dlToken (c : ErrCode) (s : State) : (finish c s).regs.dlToken = s.regs.dlToken := rfl
@[simp] theorem finish_regs_hasDeadline (c : ErrCode) (s : State) : (finish c s).regs.hasDeadline = s.regs.hasDeadline := rfl
@[simp] theorem finish_regs_lenValue (c : ErrCode) (s : State) : (finish c s).regs.lenValue = s.regs.lenValue := rfl
@[simp] theorem finish_regs_lenInfo (c : ErrCode) (s : State) : (finish c s).regs.lenInfo = s.regs.lenInfo := rfl
@[simp] theorem finish_regs_encBytes (c : ErrCode) (s : State) : (finish c s).regs.encBytes = s.regs.encBytes := rfl
@[simp] theorem finish_regs_hdr (c : ErrCode) (s : State) : (finish c s).regs.hdr = s.regs.hdr := rfl
@[simp] theorem finish_regs_xferCount (c : ErrCode) (s : State) : (finish c s).regs.xferCount = s.regs.xferCount := rfl
@[simp] theorem finish_regs_xportCode (c : ErrCode) (s : State) : (finish c s).regs.xportCode = s.regs.xportCode := rfl
@[simp] theorem finish_eng_phase (c : ErrCode) (s : State) : (finish c s).eng.phase = .idle := rfl
@[simp] theorem finish_eng_wait (c : ErrCode) (s : State) : (finish c s).eng.wait = .none := rfl
@[simp] theorem finish_eng_op (c : ErrCode) (s : State) : (finish c s).eng.op = s.eng.op := rfl
@[simp] theorem finish_eng_capL (c : ErrCode) (s : State) : (finish c s).eng.capL = s.eng.capL := rfl
@[simp] theorem finish_eng_lenL (c : ErrCode) (s : State) : (finish c s).eng.lenL = s.eng.lenL := rfl
@[simp] theorem finish_eng_tokL (c : ErrCode) (s : State) : (finish c s).eng.tokL = s.eng.tokL := rfl
@[simp] theorem finish_eng_hasL (c : ErrCode) (s : State) : (finish c s).eng.hasL = s.eng.hasL := rfl
@[simp] theorem finish_eng_acc (c : ErrCode) (s : State) : (finish c s).eng.acc = s.eng.acc := rfl
@[simp] theorem finish_eng_i (c : ErrCode) (s : State) : (finish c s).eng.i = s.eng.i := rfl
@[simp] theorem finish_eng_v (c : ErrCode) (s : State) : (finish c s).eng.v = s.eng.v := rfl
@[simp] theorem finish_eng_off (c : ErrCode) (s : State) : (finish c s).eng.off = s.eng.off := rfl
@[simp] theorem finish_eng_got (c : ErrCode) (s : State) : (finish c s).eng.got = s.eng.got := rfl
@[simp] theorem finish_eng_req (c : ErrCode) (s : State) : (finish c s).eng.req = s.eng.req := rfl

/-! ### issue -/

@[simp] theorem issue_cfg (o : Nibble) (s : State) : (issue o s).cfg = s.cfg := rfl
@[simp] theorem issue_buf (o : Nibble) (s : State) : (issue o s).buf = s.buf := rfl
@[simp] theorem issue_todo (o : Nibble) (s : State) : (issue o s).todo = s.todo := rfl
@[simp] theorem issue_turns (o : Nibble) (s : State) : (issue o s).turns = s.turns := rfl
@[simp] theorem issue_xportAnswers (o : Nibble) (s : State) : (issue o s).xportAnswers = s.xportAnswers := rfl
@[simp] theorem issue_deadlineAnswers (o : Nibble) (s : State) : (issue o s).deadlineAnswers = s.deadlineAnswers := rfl
@[simp] theorem issue_log (o : Nibble) (s : State) : (issue o s).log = s.log := rfl
@[simp] theorem issue_regs (o : Nibble) (s : State) : (issue o s).regs = s.regs := rfl
@[simp] theorem issue_eng_phase (o : Nibble) (s : State) : (issue o s).eng.phase = s.eng.phase := rfl
@[simp] theorem issue_eng_wait (o : Nibble) (s : State) : (issue o s).eng.wait = s.eng.wait := rfl
@[simp] theorem issue_eng_op (o : Nibble) (s : State) : (issue o s).eng.op = o := rfl
@[simp] theorem issue_eng_capL (o : Nibble) (s : State) : (issue o s).eng.capL = s.eng.capL := rfl
@[simp] theorem issue_eng_lenL (o : Nibble) (s : State) : (issue o s).eng.lenL = s.eng.lenL := rfl
@[simp] theorem issue_eng_tokL (o : Nibble) (s : State) : (issue o s).eng.tokL = s.eng.tokL := rfl
@[simp] theorem issue_eng_hasL (o : Nibble) (s : State) : (issue o s).eng.hasL = s.eng.hasL := rfl
@[simp] theorem issue_eng_acc (o : Nibble) (s : State) : (issue o s).eng.acc = 0 := rfl
@[simp] theorem issue_eng_i (o : Nibble) (s : State) : (issue o s).eng.i = 0 := rfl
@[simp] theorem issue_eng_v (o : Nibble) (s : State) : (issue o s).eng.v = 0 := rfl
@[simp] theorem issue_eng_off (o : Nibble) (s : State) : (issue o s).eng.off = 0 := rfl
@[simp] theorem issue_eng_got (o : Nibble) (s : State) : (issue o s).eng.got = 0 := rfl
@[simp] theorem issue_eng_req (o : Nibble) (s : State) : (issue o s).eng.req = s.eng.req := rfl

/-! ### latchDeadline -/

@[simp] theorem latchDeadline_cfg (s : State) : (latchDeadline s).cfg = s.cfg := rfl
@[simp] theorem latchDeadline_buf (s : State) : (latchDeadline s).buf = s.buf := rfl
@[simp] theorem latchDeadline_todo (s : State) : (latchDeadline s).todo = s.todo := rfl
@[simp] theorem latchDeadline_turns (s : State) : (latchDeadline s).turns = s.turns := rfl
@[simp] theorem latchDeadline_xportAnswers (s : State) : (latchDeadline s).xportAnswers = s.xportAnswers := rfl
@[simp] theorem latchDeadline_deadlineAnswers (s : State) : (latchDeadline s).deadlineAnswers = s.deadlineAnswers := rfl
@[simp] theorem latchDeadline_log (s : State) : (latchDeadline s).log = s.log := rfl
@[simp] theorem latchDeadline_regs (s : State) : (latchDeadline s).regs = s.regs := rfl
@[simp] theorem latchDeadline_eng_phase (s : State) : (latchDeadline s).eng.phase = s.eng.phase := rfl
@[simp] theorem latchDeadline_eng_wait (s : State) : (latchDeadline s).eng.wait = s.eng.wait := rfl
@[simp] theorem latchDeadline_eng_op (s : State) : (latchDeadline s).eng.op = s.eng.op := rfl
@[simp] theorem latchDeadline_eng_capL (s : State) : (latchDeadline s).eng.capL = s.eng.capL := rfl
@[simp] theorem latchDeadline_eng_lenL (s : State) : (latchDeadline s).eng.lenL = s.eng.lenL := rfl
@[simp] theorem latchDeadline_eng_tokL (s : State) : (latchDeadline s).eng.tokL = s.regs.dlToken := rfl
@[simp] theorem latchDeadline_eng_hasL (s : State) : (latchDeadline s).eng.hasL = s.regs.hasDeadline := rfl
@[simp] theorem latchDeadline_eng_acc (s : State) : (latchDeadline s).eng.acc = s.eng.acc := rfl
@[simp] theorem latchDeadline_eng_i (s : State) : (latchDeadline s).eng.i = s.eng.i := rfl
@[simp] theorem latchDeadline_eng_v (s : State) : (latchDeadline s).eng.v = s.eng.v := rfl
@[simp] theorem latchDeadline_eng_off (s : State) : (latchDeadline s).eng.off = s.eng.off := rfl
@[simp] theorem latchDeadline_eng_got (s : State) : (latchDeadline s).eng.got = s.eng.got := rfl
@[simp] theorem latchDeadline_eng_req (s : State) : (latchDeadline s).eng.req = s.eng.req := rfl

/-! ### start -/

@[simp] theorem start_cfg (p : Phase) (ops : List Micro) (s : State) : (start p ops s).cfg = s.cfg := rfl
@[simp] theorem start_buf (p : Phase) (ops : List Micro) (s : State) : (start p ops s).buf = s.buf := rfl
@[simp] theorem start_todo (p : Phase) (ops : List Micro) (s : State) : (start p ops s).todo = ops := rfl
@[simp] theorem start_turns (p : Phase) (ops : List Micro) (s : State) : (start p ops s).turns = s.turns := rfl
@[simp] theorem start_xportAnswers (p : Phase) (ops : List Micro) (s : State) : (start p ops s).xportAnswers = s.xportAnswers := rfl
@[simp] theorem start_deadlineAnswers (p : Phase) (ops : List Micro) (s : State) : (start p ops s).deadlineAnswers = s.deadlineAnswers := rfl
@[simp] theorem start_log (p : Phase) (ops : List Micro) (s : State) : (start p ops s).log = s.log := rfl
@[simp] theorem start_regs_status (p : Phase) (ops : List Micro) (s : State) : (start p ops s).regs.status = Status.running := rfl
@[simp] theorem start_regs_cap (p : Phase) (ops : List Micro) (s : State) : (start p ops s).regs.cap = s.regs.cap := rfl
@[simp] theorem start_regs_length (p : Phase) (ops : List Micro) (s : State) : (start p ops s).regs.length = s.regs.length := rfl
@[simp] theorem start_regs_dlToken (p : Phase) (ops : List Micro) (s : State) : (start p ops s).regs.dlToken = s.regs.dlToken := rfl
@[simp] theorem start_regs_hasDeadline (p : Phase) (ops : List Micro) (s : State) : (start p ops s).regs.hasDeadline = s.regs.hasDeadline := rfl
@[simp] theorem start_regs_lenValue (p : Phase) (ops : List Micro) (s : State) : (start p ops s).regs.lenValue = s.regs.lenValue := rfl
@[simp] theorem start_regs_lenInfo (p : Phase) (ops : List Micro) (s : State) : (start p ops s).regs.lenInfo = s.regs.lenInfo := rfl
@[simp] theorem start_regs_encBytes (p : Phase) (ops : List Micro) (s : State) : (start p ops s).regs.encBytes = s.regs.encBytes := rfl
@[simp] theorem start_regs_hdr (p : Phase) (ops : List Micro) (s : State) : (start p ops s).regs.hdr = s.regs.hdr := rfl
@[simp] theorem start_regs_xferCount (p : Phase) (ops : List Micro) (s : State) : (start p ops s).regs.xferCount = s.regs.xferCount := rfl
@[simp] theorem start_regs_xportCode (p : Phase) (ops : List Micro) (s : State) : (start p ops s).regs.xportCode = s.regs.xportCode := rfl
@[simp] theorem start_eng_phase (p : Phase) (ops : List Micro) (s : State) : (start p ops s).eng.phase = p := rfl
@[simp] theorem start_eng_wait (p : Phase) (ops : List Micro) (s : State) : (start p ops s).eng.wait = s.eng.wait := rfl
@[simp] theorem start_eng_op (p : Phase) (ops : List Micro) (s : State) : (start p ops s).eng.op = s.eng.op := rfl
@[simp] theorem start_eng_capL (p : Phase) (ops : List Micro) (s : State) : (start p ops s).eng.capL = s.eng.capL := rfl
@[simp] theorem start_eng_lenL (p : Phase) (ops : List Micro) (s : State) : (start p ops s).eng.lenL = s.eng.lenL := rfl
@[simp] theorem start_eng_tokL (p : Phase) (ops : List Micro) (s : State) : (start p ops s).eng.tokL = s.eng.tokL := rfl
@[simp] theorem start_eng_hasL (p : Phase) (ops : List Micro) (s : State) : (start p ops s).eng.hasL = s.eng.hasL := rfl
@[simp] theorem start_eng_acc (p : Phase) (ops : List Micro) (s : State) : (start p ops s).eng.acc = s.eng.acc := rfl
@[simp] theorem start_eng_i (p : Phase) (ops : List Micro) (s : State) : (start p ops s).eng.i = s.eng.i := rfl
@[simp] theorem start_eng_v (p : Phase) (ops : List Micro) (s : State) : (start p ops s).eng.v = s.eng.v := rfl
@[simp] theorem start_eng_off (p : Phase) (ops : List Micro) (s : State) : (start p ops s).eng.off = s.eng.off := rfl
@[simp] theorem start_eng_got (p : Phase) (ops : List Micro) (s : State) : (start p ops s).eng.got = s.eng.got := rfl
@[simp] theorem start_eng_req (p : Phase) (ops : List Micro) (s : State) : (start p ops s).eng.req = s.eng.req := rfl

/-! ### emit -/

@[simp] theorem emit_cfg (e : PortEvent) (s : State) : (emit e s).cfg = s.cfg := rfl
@[simp] theorem emit_buf (e : PortEvent) (s : State) : (emit e s).buf = s.buf := rfl
@[simp] theorem emit_todo (e : PortEvent) (s : State) : (emit e s).todo = s.todo := rfl
@[simp] theorem emit_turns (e : PortEvent) (s : State) : (emit e s).turns = s.turns := rfl
@[simp] theorem emit_xportAnswers (e : PortEvent) (s : State) : (emit e s).xportAnswers = s.xportAnswers := rfl
@[simp] theorem emit_deadlineAnswers (e : PortEvent) (s : State) : (emit e s).deadlineAnswers = s.deadlineAnswers := rfl
@[simp] theorem emit_log (e : PortEvent) (s : State) : (emit e s).log = s.log ++ [e] := rfl
@[simp] theorem emit_regs (e : PortEvent) (s : State) : (emit e s).regs = s.regs := rfl
@[simp] theorem emit_eng (e : PortEvent) (s : State) : (emit e s).eng = s.eng := rfl

/-! ### dropTodo -/

@[simp] theorem dropTodo_cfg (s : State) : (dropTodo s).cfg = s.cfg := rfl
@[simp] theorem dropTodo_buf (s : State) : (dropTodo s).buf = s.buf := rfl
@[simp] theorem dropTodo_todo (s : State) : (dropTodo s).todo = s.todo.tail := rfl
@[simp] theorem dropTodo_turns (s : State) : (dropTodo s).turns = s.turns := rfl
@[simp] theorem dropTodo_xportAnswers (s : State) : (dropTodo s).xportAnswers = s.xportAnswers := rfl
@[simp] theorem dropTodo_deadlineAnswers (s : State) : (dropTodo s).deadlineAnswers = s.deadlineAnswers := rfl
@[simp] theorem dropTodo_log (s : State) : (dropTodo s).log = s.log := rfl
@[simp] theorem dropTodo_regs (s : State) : (dropTodo s).regs = s.regs := rfl
@[simp] theorem dropTodo_eng (s : State) : (dropTodo s).eng = s.eng := rfl

/-! ### resetStep -/

@[simp] theorem resetStep_cfg (s : State) : (resetStep s).cfg = s.cfg := rfl
@[simp] theorem resetStep_buf (s : State) : (resetStep s).buf = s.buf := rfl
@[simp] theorem resetStep_todo (s : State) : (resetStep s).todo = [] := rfl
@[simp] theorem resetStep_turns (s : State) : (resetStep s).turns = s.turns := rfl
@[simp] theorem resetStep_xportAnswers (s : State) : (resetStep s).xportAnswers = s.xportAnswers := rfl
@[simp] theorem resetStep_deadlineAnswers (s : State) : (resetStep s).deadlineAnswers = s.deadlineAnswers := rfl
@[simp] theorem resetStep_log (s : State) : (resetStep s).log = s.log := rfl
@[simp] theorem resetStep_regs (s : State) : (resetStep s).regs = Regs.reset := rfl
@[simp] theorem resetStep_eng (s : State) : (resetStep s).eng = Engine.reset := rfl

end Sys2Proof.Machine
end

