-- ==== Sys2Proof/Laws/Invariant.lean ====
section
/-! SUPPORT. Each operation of the machine keeps the invariant `State.Inv`; each stands once, for the statements about
every step. -/

namespace Sys2Proof.Machine

/-- What every part of the invariant about an idle machine rests on. -/
def Base (s : State) : Prop := s.cfg.wf = true ∧ Memory.wf s.buf ∧ (∀ c ∈ s.buf, c.1 < s.cfg.bufSize.toNat) ∧
    s.regs.lenInfo.legal = true

/-- The base facts are part of the invariant. -/
theorem State.Inv.base {s : State} (h : s.Inv) : Base s := ⟨h.1, h.2.1, h.2.2.1, h.2.2.2.2.1⟩

/-- An idle machine that waits for nothing meets the invariant. -/
theorem idle_inv {s : State} (h : Base s) (hs : s.regs.status.legal = true) (hb : s.regs.status.busy = false)
    (hp : s.eng.phase = .idle)
   (hw : s.eng.wait = .none) (ht : s.todo = []) : s.Inv := by
  obtain ⟨h1, h2, h3, h4⟩ := h
  refine ⟨h1, h2, h3, hs, h4, by simp [hb, hp], ?_, ?_, ?_, ?_, ?_, ?_, ?_, ?_, ?_⟩ <;>
    simp [Framed, settleRegs, settleEngine, Phase.reading, hp, hw, ht]

/-- `finish` keeps the invariant. -/
theorem finish_inv {s : State} (c) (h : Base s) : (finish c s).Inv :=
  idle_inv h (legal_finished c) rfl rfl rfl rfl

/-- BUSY = 0 means IDLE (R39). -/
theorem idle_of_not_busy {s : State} (h : s.Inv) (hb : s.regs.status.busy = false) :
    s.eng.phase = .idle ∧ s.eng.wait = .none ∧ s.todo = [] := by
  obtain ⟨h1, h2, h3, h4, h5, h6, h7, h8, h9, h10⟩ := h
  have : s.eng.phase = .idle := by rw [hb] at h6; simpa using h6.symm
  exact ⟨this, h8 this⟩

/-- Every command issued while none runs keeps the invariant. -/
theorem exec_inv {i : Instr} {s t : State} (h : s.Inv) (hb : s.regs.status.busy = false) (he : exec i s = .next t) :
    t.Inv := by
  obtain ⟨hp, hw, ht⟩ := idle_of_not_busy h hb
  obtain ⟨h1, h2, h3, h4⟩ := h.base
  simp only [LenInfo.legal, Bool.and_eq_true, decide_eq_true_eq] at h4
  cases i with
  | lenDecode =>
    cases he
    refine ⟨h1, h2, h3, rfl, ?_, rfl, ?_, ?_, ?_, ?_, ?_, ?_, ?_, ?_, ?_⟩ <;>
      simp [Framed, settleRegs, settleEngine, Phase.reading, start, issue, latchDeadline, hw, Phase.opcode,
          LenInfo.legal, h4]
  | lenEncode =>
    simp only [exec, execLenEncode] at he
    split_ifs at he <;> cases he <;> refine finish_inv _ ⟨h1, h2, h3, ?_⟩
    · simp [LenInfo.legal, h4]
    · have := encLen_bounds (s.regs.lenValue.setWidth 28)
      simp [LenInfo.legal, h4, encCount]; omega
  | hdrUnpack => cases he; exact finish_inv _ h.base
  | hdrPack => cases he; exact finish_inv _ h.base
  | readPacket =>
    simp only [exec, execReadPacket] at he
    rcases capOps_cases s.regs.cap s.cfg.bufSize with ⟨c, hc⟩ | ⟨hc, hc1, hc2⟩
    all_goals
      simp only [latchDeadline_cfg, issue_cfg, hc] at he
      cases he
      refine ⟨h1, h2, h3, rfl, rfl, rfl, ?_, ?_, ?_, ?_, ?_, ?_, ?_, ?_, ?_⟩
      all_goals simp_all [Phase.opcode, start, issue, latchDeadline, Micro.legal, Micro.isSend, Framed, settleRegs,
          settleEngine, Phase.reading, onEngine]
  | sendPacket =>
    simp only [exec, execSendPacket] at he
    have h4' := h.base.2.2.2
    rcases lenOps_cases s.regs.length s.cfg.bufSize with ⟨c, hc⟩ | ⟨hc, hc2⟩
    all_goals
      simp only [latchDeadline_cfg, issue_cfg, hc] at he
      cases he
      refine ⟨h1, h2, h3, rfl, h4', rfl, ?_, ?_, ?_, ?_, ?_, ?_, ?_, ?_, ?_⟩
      all_goals simp_all [Phase.opcode, start, issue, latchDeadline, Micro.legal, Micro.isSend, Framed, settleRegs,
          settleEngine, Phase.reading, onEngine]

/-- A host register write keeps the invariant. -/
theorem write_inv {s : State} (h : s.Inv) (hb : s.regs.status.busy = false) (x w) :
    ({ s with regs := s.regs.write x w } : State).Inv := by
  obtain ⟨hp, hw, ht⟩ := idle_of_not_busy h hb
  have hs := h.2.2.2.1
  obtain ⟨h1, h2, h3, h4⟩ := h.base
  refine idle_inv ⟨h1, h2, h3, ?_⟩ ?_ ?_ hp hw ht <;> cases x <;> assumption

/-- A host BUF write keeps the invariant. -/
theorem bufWrite_inv {s : State} (h : s.Inv) {a b} (ha : s.inBuf a = true) (hb : s.regs.status.busy = false) :
    ({ s with buf := s.buf.write a b } : State).Inv := by
  obtain ⟨hp, hw, ht⟩ := idle_of_not_busy h hb
  obtain ⟨h1, h2, h3, h4⟩ := h.base
  exact idle_inv ⟨h1, Memory.wf_write h2 _ _, Memory.write_below h3 (by simpa [State.inBuf] using ha) _,
      h4⟩ h.2.2.2.1 hb hp hw ht

/-- Sending a request keeps the invariant. -/
theorem sendRequest_inv {s t : State} {ms : Word} (h : s.Inv) (hp : s.eng.phase ≠ .idle)
    (hd : s.eng.hasL = false → ms = unbounded)
   (ht : s.todo = []) (he : sendRequest ms s = .next t) : t.Inv := by
  unfold sendRequest at he
  split at he
  · rename_i dir n data hplan
    cases he
    obtain ⟨h1, h2, h3, h4, h5, h6, h7, h8, h9, h10, h11, h12, h12', h13, h14⟩ := h
    refine ⟨h1, h2, h3, h4, h5, h6, h7, fun e => absurd e hp, fun _ => ht, by simp [emit], fun _ hl => hd hl,
        fun _ => hplan, ?_, ?_, ?_⟩
    · simp [emit, ht]
    · simp [emit, ht]
    · simpa [emit, ht, settleRegs, settleEngine] using h14
  · cases he; exact finish_inv _ h.base
  · cases he

/-- Beginning a call keeps the invariant. -/
theorem beginCall_inv {s t : State} (h : s.Inv) (hp : s.eng.phase ≠ .idle) (ht : s.todo = [])
    (he : beginCall s = .next t) : t.Inv := by
  unfold beginCall at he
  split at he
  · split_ifs at he with hl
    · cases he
      obtain ⟨h1, h2, h3, h4, h5, h6, h7, h8, h9, h10, h11, h12, h12', h13, h14⟩ := h
      refine ⟨h1, h2, h3, h4, h5, h6, h7, fun e => absurd e hp, fun _ => ht, fun _ => hl, by simp [emit],
          by simp [emit], ?_, ?_, ?_⟩
      · simp [emit, ht]
      · simp [emit, ht]
      · simpa [emit, ht, settleRegs, settleEngine] using h14
    · exact sendRequest_inv h hp (fun _ => rfl) ht he
  · cases he; exact finish_inv _ h.base
  · cases he

/-- A write that is due stays legal when another is performed. -/
theorem legal_of_onEngine {op op' : Micro} {s t : State} (hop : op.legal s = true) (hl : op'.legal s = true)
   (he : t.eng = onEngine op s.eng) (hc : t.cfg = s.cfg) (hf : ∀ c, op ≠ .finish c) : op'.legal t = true := by
  have hcap : t.eng.capL = s.eng.capL := by rw [he]; cases op <;> rfl
  have hh : t.eng.hasL = s.eng.hasL := by rw [he]; cases op <;> rfl
  have hph : s.eng.phase.reading = true → t.eng.phase.reading = true := by
    rw [he]; cases op <;> simp_all [onEngine, Micro.legal]
  cases op' <;> simp_all [Micro.legal, State.inBuf]

/-- Performing one write of a command's rule keeps the invariant. -/
theorem perform_inv {op : Micro} {s t : State} {rest} (h : s.Inv) (hp : s.eng.phase ≠ .idle) (hw : s.eng.wait = .none)
    (ht : s.todo = op :: rest) (he : perform op (dropTodo s) = .next t) : t.Inv := by
  obtain ⟨h1, h2, h3, h4, h5, h6, h7, h8, h9, h10, h11, h12, h12', h13, h14⟩ := h
  have hd : dropTodo s = { s with todo := rest } := by simp [dropTodo, ht]
  rw [hd] at he
  have hop : op.legal s = true := h13 op (by simp [ht])
  have hrest : ∀ o ∈ rest, o.legal s = true := fun o ho => h13 o (by simp [ht, ho])
  have hrs : rest.any Micro.isSend = true → rest.length = 1 := fun hx => by
    have := h12' (by rw [ht, List.any_cons, hx, Bool.or_true])
    rw [ht] at this
    cases rest <;> simp_all
  rw [ht] at h14
  simp only [settleRegs, settleEngine] at h14
  -- the plain writes
  have plain : (∀ c, op ≠ .finish c) →
      ({ s with todo := rest, regs := onRegs op s.regs, eng := onEngine op s.eng } : State).Inv := by
    intro f1
    have hph := onEngine_phase hop f1
    have hpr : (onEngine op s.eng).phase ≠ .idle := by
      rcases hph with e | ⟨_, e⟩
      · rw [e]; exact hp
      · exact reading_ne e
    have hwt : (onEngine op s.eng).wait = .none := (onEngine_wait _ f1).trans hw
    have hst := onRegs_status s.regs f1
    refine ⟨h1, h2, h3, ?_, onRegs_lenInfo_legal hop h5, ?_, ?_, fun e => absurd e hpr, fun e => absurd hwt e,
        fun e => ?_, fun e => ?_, fun e => ?_, hrs, ?_, h14⟩
    · show (onRegs op s.regs).status.legal = true
      rw [hst]; exact h4
    · show (onRegs op s.regs).status.busy = _
      rw [hst, h6]
      have : (s.eng.phase != Phase.idle) = true := by simpa using hp
      have h'' : ((onEngine op s.eng).phase != Phase.idle) = true := by simpa using hpr
      exact this.trans h''.symm
    · intro _
      show (onEngine op s.eng).phase.opcode = some (onEngine op s.eng).op
      rw [onEngine_op, ← h7 hp]
      rcases hph with e | ⟨e1, e2⟩
      · rw [e]
      · rw [reading_opcode e1, reading_opcode e2]
    · rw [hwt] at e; cases e
    · rw [hwt] at e; cases e
    · rw [hwt] at e; cases e
    · intro o ho
      exact legal_of_onEngine (s := s) hop (hrest o ho) rfl rfl f1
  cases op with
  | finish c => cases he; exact finish_inv c ⟨h1, h2, h3, h5⟩
  | send x =>
    have hr : rest = [] := by
      have := h12' (by rw [ht]; rfl)
      rw [ht] at this; simpa using this
    subst hr
    refine sendRequest_inv (s := { s with todo := [] }) ?_ hp ?_ rfl he
    · refine ⟨h1, h2, h3, h4, h5, h6, h7, fun e => absurd e hp, fun e => rfl, h10, h11, h12, by simp, by simp, h14⟩
    · intro hl
      have : s.eng.hasL = true := hop
      exact absurd hl (by simp [this])
  | memWrite a b =>
    simp only [perform] at he
    split_ifs at he with ha
    cases he
    refine ⟨h1, Memory.wf_write h2 _ _, Memory.write_below h3 (by simpa [State.inBuf] using ha) _, h4, h5, h6, h7,
        fun e => absurd e hp, fun e => absurd hw e, fun e => ?_, fun e => ?_, fun e => ?_, hrs, hrest, h14⟩ <;>
    · have e' : s.eng.wait = _ := e
      rw [hw] at e'; cases e'
  | _ => cases he; exact plain (by simp)

/-- An Engine step keeps the invariant. -/
theorem engineStep_inv {s t : State} (h : s.Inv) (he : engineStep s = .next t) : t.Inv := by
  unfold engineStep at he
  split at he
  · cases he; exact h
  · cases he; exact h
  · cases he; exact h
  · rename_i hw hp
    split at he
    · rename_i op rest ht
      exact perform_inv h hp hw ht he
    · rename_i ht
      exact beginCall_inv h hp ht he

/-- A DeadlineSource step keeps the invariant. -/
theorem deadlineStep_inv {s t : State} (h : s.Inv) (he : deadlineStep s = .next t) : t.Inv := by
  unfold deadlineStep at he
  split at he
  · cases he; exact h
  · simp only at he
    split_ifs at he with hw
    · cases he
      obtain ⟨h1, h2, h3, h4, h5, h6, h7, h8, h9, h10, h11, h12, h12', h13, h14⟩ := h
      have ht := h9 (by simp [hw])
      have hp : s.eng.phase ≠ .idle := fun e => by have := (h8 e).1; simp [hw] at this
      refine ⟨h1, h2, h3, h4, h5, h6, h7, fun e => absurd e hp, by simp, by simp, by simp, by simp, by simp, ?_, ?_⟩
      · simpa [Micro.legal] using h10 hw
      · simpa [ht, settleRegs, settleEngine, onRegs, onEngine] using h14
    · cases he; exact h

/-- The state right after an answer is taken, with the writes it leads to. -/
abbrev State.answered (s : State) (ops : List Micro) : State :=
  { s with eng := { s.eng with wait := .none }, todo := ops }

/-- Taking an answer keeps the invariant if the writes it leads to are legal and leave the framing fields right. -/
theorem answered_inv {s : State} {ops : List Micro} (h : s.Inv) (hw : s.eng.wait = .xport)
    (hns : ops.any Micro.isSend = false)
    (hl : ∀ op ∈ ops, op.legal s = true)
    (hf : Framed s.cfg (settleRegs ops s.regs) (settleEngine ops { s.eng with wait := .none })) :
    (s.answered ops).Inv := by
  obtain ⟨h1, h2, h3, h4, h5, h6, h7, h8, h9, h10, h11, h12, h12', h13, h14⟩ := h
  have hp : s.eng.phase ≠ .idle := fun e => by have := (h8 e).1; simp [hw] at this
  exact ⟨h1, h2, h3, h4, h5, h6, h7, fun e => absurd e hp, by simp, by simp, by simp, by simp, by simp [hns], hl, hf⟩

/-- In IDLE nothing is asked of the framing fields. -/
theorem framed_idle {c r e} (h : e.phase = .idle) : Framed c r e := by
  simp [Framed, h, Phase.reading]

/-- An answer that ends the command keeps the invariant. -/
theorem ends_inv {s : State} {ops : List Micro} {e} (h : s.Inv) (hw : s.eng.wait = .xport)
    (hops : (∃ op, ops = [op, .finish e] ∧ ∀ s, op.legal s = true ∧ op.isSend = false) ∨ ops = [.finish e]) :
    (s.answered ops).Inv := by
  rcases hops with ⟨op, rfl, hl⟩ | rfl
  · refine answered_inv h hw (by simp [(hl s).2]; rfl) ?_ (framed_idle rfl)
    intro o ho
    simp at ho
    rcases ho with rfl | rfl
    · exact (hl s).1
    · rfl
  · exact answered_inv h hw rfl (by simp [Micro.legal]) (framed_idle rfl)

/-- The writes of READ_PACKET's steps 2 to 4 are legal and leave its framing fields right (R174 to R178). -/
theorem lengthOps_facts {s : State} (hr : s.eng.phase.reading = true)
    (hcap : s.eng.capL.toNat ≤ s.cfg.bufSize.toNat) (v : RemLen) (r : Regs) (e : Engine)
   (hg : e.got = 0) (hx : r.xferCount = 0) (hc : e.capL = s.eng.capL) (h1 : 1 ≤ s.eng.capL.toNat) :
   (∀ op ∈ lengthOps s.eng.capL v, op.legal s = true ∧ op.isSend = false) ∧
   Framed s.cfg (settleRegs (lengthOps s.eng.capL v) r) (settleEngine (lengthOps s.eng.capL v) e) := by
  have hb := encLen_bounds v
  obtain ⟨hn, hon⟩ := count_encLen v
  have hol : offsetLegal (1 + encCount v) = true := by
    simp only [offsetLegal, hon, Bool.or_eq_true, Bool.and_eq_true, decide_eq_true_eq]; right; omega
  have hst := storeOps_cases s.eng.capL v
  have hmem : ∀ op ∈ memWriteOps 1 (varEncode v), 1 + encLen v ≤ s.eng.capL.toNat → op.legal s = true ∧
      op.isSend = false := by
    intro op hop hle
    obtain ⟨a, b, rfl, h2, h3⟩ := mem_memWriteOps hop
    refine ⟨?_, rfl⟩
    simp only [encLen] at hle
    simp only [Micro.legal, hr, State.inBuf, Bool.true_and, Bool.and_eq_true, decide_eq_true_eq]
    omega
  constructor
  · intro op hop
    unfold lengthOps at hop
    simp only [List.mem_append, List.mem_cons, List.not_mem_nil, or_false] at hop
    rcases hop with ((hop | hop) | hop) | hop
    · rcases hop with rfl | rfl | rfl <;> exact ⟨rfl, rfl⟩
    · obtain ⟨a, b, rfl⟩ := mem_encByteOps hop; exact ⟨rfl, rfl⟩
    · rcases hop with rfl | rfl
      · exact ⟨by simp only [Micro.legal, decide_eq_true_eq]; omega, rfl⟩
      · exact ⟨hol, rfl⟩
    · rcases hst with h | ⟨hle, c, h⟩ | ⟨hle, hv, h⟩ <;> rw [h] at hop
      · simp at hop; subst hop; exact ⟨rfl, rfl⟩
      · rcases List.mem_append.1 hop with hop | hop
        · exact hmem op hop hle
        · simp at hop; subst hop; exact ⟨rfl, rfl⟩
      · rcases List.mem_append.1 hop with hop | hop
        · exact hmem op hop (by omega)
        · simp at hop; subst hop; exact ⟨by simp only [Micro.legal, hr]; rfl, rfl⟩
  · unfold lengthOps
    rcases hst with h | ⟨hle, c, h⟩ | ⟨hle, hv, h⟩ <;> rw [h]
    · exact framed_idle (by simp [settleEngine, encByteOps_settleEngine, onEngine])
    · exact framed_idle (by simp [settleEngine, encByteOps_settleEngine, memWriteOps_settleEngine, onEngine])
    · simp only [List.append_assoc, List.cons_append, List.nil_append, settleEngine, settleRegs,
        encByteOps_settleEngine, memWriteOps_settleEngine, onEngine, encByteOps_settleRegs, memWriteOps_settleRegs,
        onRegs]
      refine ⟨fun _ => by rw [hc]; exact ⟨h1, hcap⟩, by simp, by simp, by simp, fun _ => ⟨hv, hon, ?_, ?_, ?_, rfl⟩,
          by simp⟩
      · rw [hc]; show (1 + encCount v).toNat + v.toNat ≤ _
        rw [hon]; exact hle
      · rw [hg]; simp
      · rw [hx, hg]

/-- While the Engine waits nothing is due. -/
theorem wait_framed {s : State} (h : s.Inv) (hw : s.eng.wait ≠ .none) : s.todo = [] ∧ Framed s.cfg s.regs s.eng := by
  obtain ⟨h1, h2, h3, h4, h5, h6, h7, h8, h9, h10, h11, h12, h12', h13, h14⟩ := h
  have ht := h9 hw
  rw [ht] at h14
  exact ⟨ht, h14⟩

/-- A length byte that continues. -/
theorem lenByte_more {s : State} {b : Byte} {a n} (h : s.Inv) (hw : s.eng.wait = .xport)
    (hp : s.eng.phase = .ld ∨ s.eng.phase = .rpLen)
    (hd : varDecStep s.eng.acc s.eng.i b = .more a n) :
    (s.answered [.setI (s.eng.i + 1), .setWireCount (s.eng.i + 1), .setAcc a]).Inv := by
  obtain ⟨ht, f1, f2, f3, f4, f5, f6⟩ := wait_framed h (by simp [hw])
  obtain ⟨g1, g2, g3⟩ := f3 (hp.elim .inl (fun e => .inr (.inr e)))
  obtain ⟨d1, d2, d3, d4, d5⟩ := varDecStep_more g1 g2 hd
  refine answered_inv h hw rfl ?_ ?_
  · intro o ho
    simp only [List.mem_cons, List.not_mem_nil, or_false] at ho
    rcases ho with rfl | rfl | rfl
    · rfl
    · simp only [Micro.legal, decide_eq_true_eq]; omega
    · rfl
  · simp only [settleRegs, settleEngine, onRegs, onEngine]
    refine ⟨f1, ?_, ?_, f4, ?_, ?_⟩
    · intro e; rcases hp with hp | hp <;> simp [hp] at e
    · intro _
      refine ⟨?_, ?_, rfl⟩
      · show (s.eng.i + 1).toNat ≤ 3; omega
      · show a.toNat < 2 ^ (7 * (s.eng.i + 1).toNat); rw [d3]; exact d5
    · intro e; rcases hp with hp | hp <;> simp [hp] at e
    · intro e; rcases hp with hp | hp <;> simp [hp] at e

/-- A length byte that ends READ_PACKET's length field. -/
theorem lenByte_done {s : State} {a} (h : s.Inv) (hw : s.eng.wait = .xport) (hp : s.eng.phase = .rpLen)
    (hn4 : (s.eng.i + 1).toNat ≤ 4) :
    (s.answered ([.setI (s.eng.i + 1), .setWireCount (s.eng.i + 1)] ++ .setAcc a :: lengthOps s.eng.capL a)).Inv := by
  obtain ⟨ht, f1, f2, f3, f4, f5, f6⟩ := wait_framed h (by simp [hw])
  have hr : s.eng.phase.reading = true := by simp [hp, Phase.reading]
  obtain ⟨q1, q2⟩ := f1 hr
  obtain ⟨q3, q4⟩ := f4 (.inr hp)
  have hF := lengthOps_facts hr q2 a (onRegs (.setAcc a) (onRegs (.setWireCount (s.eng.i+1))
      (onRegs (.setI (s.eng.i+1)) s.regs)))
    (onEngine (.setAcc a) (onEngine (.setWireCount (s.eng.i+1))
        (onEngine (.setI (s.eng.i+1)) {s.eng with wait := .none}))) q3 q4 rfl q1
  refine answered_inv h hw ?_ ?_ hF.2
  · exact (List.any_eq_false.2 fun o ho => by rw [(hF.1 o ho).2]; simp :
      (lengthOps s.eng.capL a).any Micro.isSend = false)
  · intro o ho
    simp only [List.cons_append, List.nil_append, List.mem_cons] at ho
    rcases ho with rfl | rfl | rfl | ho
    · rfl
    · simp only [Micro.legal, decide_eq_true_eq]; omega
    · rfl
    · exact (hF.1 o ho).1

/-- Any length byte. -/
theorem lenByte_inv {s : State} {b : Byte} (h : s.Inv) (hw : s.eng.wait = .xport)
    (hp : s.eng.phase = .ld ∨ s.eng.phase = .rpLen) :
    (s.answered (lenByteOps s b)).Inv := by
  obtain ⟨ht, f1, f2, f3, f4, f5, f6⟩ := wait_framed h (by simp [hw])
  obtain ⟨g1, g2, g3⟩ := f3 (hp.elim .inl (fun e => .inr (.inr e)))
  have hn : (s.eng.i + 1).toNat = s.eng.i.toNat + 1 := by rw [BitVec.toNat_add]; simp; omega
  have hn4 : (s.eng.i + 1).toNat ≤ 4 := by omega
  clear f1 f2 f3 f4 f5 f6
  unfold lenByteOps
  cases hd : varDecStep s.eng.acc s.eng.i b with
  | more a n => exact lenByte_more h hw hp hd
  | malformed =>
    refine answered_inv h hw rfl ?_ (framed_idle rfl)
    intro o ho
    simp only [List.cons_append, List.nil_append, List.mem_cons, List.not_mem_nil, or_false] at ho
    rcases ho with rfl | rfl | rfl
    · rfl
    · simp only [Micro.legal, decide_eq_true_eq]; omega
    · rfl
  | done a n =>
    rcases hp with hp | hp
    · have : s.eng.phase = .ld := hp
      simp only [if_pos this]
      refine answered_inv h hw rfl ?_ (framed_idle rfl)
      intro o ho
      simp only [List.cons_append, List.nil_append, List.mem_cons, List.not_mem_nil, or_false] at ho
      rcases ho with rfl | rfl | rfl | rfl | rfl
      · rfl
      · simp only [Micro.legal, decide_eq_true_eq]; omega
      all_goals rfl
    · have : ¬ s.eng.phase = .ld := by simp [hp]
      simp only [if_neg this]
      exact lenByte_done h hw hp hn4

/-- A Transport step keeps the invariant. -/
theorem transportStep_inv {s t : State} (h : s.Inv) (he : transportStep s = .next t) : t.Inv := by
  unfold transportStep at he
  split at he
  · cases he; exact h
  · rename_i a rest hans
    simp only at he
    split_ifs at he with hw hwf
    · cases he
      show (s.answered (answerOps s a)).Inv
      have hplan := h.2.2.2.2.2.2.2.2.2.2.2.1 hw
      obtain ⟨hd1, hd2⟩ := plan_dir hplan
      have hpi : s.eng.phase ≠ .idle := fun e => by have := (h.2.2.2.2.2.2.2.1 e).1; simp [hw] at this
      unfold answerOps
      cases hdir : s.eng.req.dir with
      | write =>
        simp only
        rcases writeOps_shape a with ⟨op, e, h1, h2⟩ | ⟨e, h1⟩
        · exact ends_inv h hw (.inl ⟨op, h1, h2⟩)
        · exact ends_inv h hw (.inr h1)
      | read =>
        simp only
        rw [hdir] at hwf
        cases hres : readResult a s.eng.req.n with
        | error e =>
          rcases failOps_shape a e with h1 | h1
          · exact ends_inv h hw (.inl ⟨_, h1, fun _ => ⟨rfl, rfl⟩⟩)
          · exact ends_inv h hw (.inr h1)
        | ok bs =>
          obtain ⟨b1, b2, b3, b4⟩ := readResult_ok hwf hres
          simp only
          have h' := h
          obtain ⟨h1, h2, h3, h4, h5, h6, h7, h8, h9, h10, h11, h12, h12', h13, h14⟩ := h'
          have ht := h9 (by simp [hw])
          rw [ht] at h14
          obtain ⟨f1, f2, f3, f4, f5, f6⟩ := h14
          simp only [settleEngine, settleRegs] at f1 f2 f3 f4 f5 f6
          obtain ⟨b, bs', rfl⟩ : ∃ b bs', bs = b :: bs' := by cases bs with
            | nil => simp at b3
            | cons b bs' => exact ⟨b, bs', rfl⟩
          have hgoal : ∀ ops, dataOps s (b :: bs') = ops → (s.answered ops).Inv →
              (s.answered (dataOps s (b :: bs'))).Inv := fun ops e h => by rw [e]; exact h
          obtain ⟨p, hph⟩ : ∃ p, s.eng.phase = p := ⟨_, rfl⟩
          cases p
          · exact absurd hph hpi
          · exact hgoal (lenByteOps s b) (by simp [dataOps, hph]) (lenByte_inv h hw (.inl hph))
          · refine hgoal [.memWrite 0 b, .setHdr b, .setPhase .rpLen] (by simp [dataOps, hph]) ?_
            have hr : s.eng.phase.reading = true := by simp [hph, Phase.reading]
            obtain ⟨q1, q2⟩ := f1 hr
            refine answered_inv h hw rfl ?_ ?_
            · intro o ho
              simp only [List.mem_cons, List.not_mem_nil, or_false] at ho
              rcases ho with rfl | rfl | rfl
              · simp only [Micro.legal, hr, State.inBuf, Bool.true_and, Bool.and_eq_true, decide_eq_true_eq]
                omega
              · rfl
              · simp only [Micro.legal, hr]; rfl
            · simp only [settleRegs, settleEngine, onRegs, onEngine]
              exact ⟨fun _ => f1 hr, by simp, fun _ => f3 (.inr (.inl hph)), fun _ => f4 (.inl hph), by simp, by simp⟩
          · exact hgoal (lenByteOps s b) (by simp [dataOps, hph]) (lenByte_inv h hw (.inr hph))
          · refine hgoal _ (by simp only [dataOps, hph]; rfl) ?_
            have hr : s.eng.phase.reading = true := by simp [hph, Phase.reading]
            obtain ⟨q1, q2⟩ := f1 hr
            obtain ⟨p1, p2, p3, p4, p5, p6⟩ := f5 hph
            obtain ⟨c1, c2⟩ := hd2 hph
            have hv := s.eng.v.isLt
            have hn : s.eng.req.n.toNat = s.eng.v.toNat - s.eng.got.toNat := by
              rw [c2, BitVec.toNat_sub, BitVec.toNat_setWidth]
              omega
            have hgot : (s.eng.got + BitVec.ofNat 32 (b :: bs').length).toNat =
                s.eng.got.toNat + (b :: bs').length := by
              rw [BitVec.toNat_add, BitVec.toNat_ofNat]; omega
            refine answered_inv h hw ?_ ?_ ?_
            · refine List.any_eq_false.2 fun o ho => ?_
              rcases List.mem_append.1 ho with ho | ho
              · obtain ⟨x, y, rfl, _⟩ := mem_memWriteOps ho; simp [Micro.isSend]
              · simp only [List.mem_cons, List.not_mem_nil, or_false] at ho
                rcases ho with rfl | rfl <;> simp [Micro.isSend]
            · intro o ho
              simp only [List.mem_append, List.mem_cons, List.not_mem_nil, or_false] at ho
              rcases ho with ho | rfl | rfl
              · obtain ⟨x, y, rfl, x1, x2⟩ := mem_memWriteOps ho
                simp only [Micro.legal, hr, State.inBuf, Bool.true_and, Bool.and_eq_true, decide_eq_true_eq]
                omega
              · rfl
              · rfl
            · rw [memWriteOps_settleEngine, memWriteOps_settleRegs]
              simp only [settleRegs, settleEngine, onRegs, onEngine]
              refine ⟨f1, by simp [hph], by simp [hph], by simp [hph], fun _ => ⟨p1, p2, p3, ?_, rfl, p6⟩,
                  by simp [hph]⟩
              show (s.eng.got + BitVec.ofNat 32 (b :: bs').length).toNat ≤ s.eng.v.toNat
              rw [hgot]; omega
          · exact absurd (hd1.2 hph) (by simp [hdir])
    · cases he; exact h

/-- Reset reaches the invariant. -/
theorem resetStep_inv {s : State} (h : s.Inv) : (resetStep s).Inv :=
  idle_inv ⟨h.1, h.2.1, h.2.2.1, rfl⟩ rfl rfl rfl rfl rfl

/-- A 32-bit host register write keeps the invariant. -/
theorem regWrite_inv {s t : State} {off w} (h : s.Inv) (he : regWrite off w s = .next t) : t.Inv := by
  unfold regWrite at he
  split_ifs at he with hb
  · cases he; exact h
  · split at he
    · unfold cmdWrite at he
      split at he
      · exact exec_inv h (by simpa using hb) he
      · cases he; exact finish_inv _ h.base
    · cases he; exact write_inv h (by simpa using hb) _ _
    · cases he; exact h

/-- A host BUF read keeps the invariant. -/
theorem bufRead_inv {s t : State} {a} (h : s.Inv) (he : bufRead a s = .next t) : t.Inv := by
  unfold bufRead at he
  split_ifs at he
  · split at he
    · cases he; exact h
    · cases he
  · cases he; exact h

/-- Every host access keeps the invariant. -/
theorem hostStep_inv {s t : State} {a} (h : s.Inv) (he : hostStep a s = .next t) : t.Inv := by
  unfold hostStep at he
  by_cases hwf : a.wf = true
  · rw [if_pos hwf] at he
    cases a with
    | regRead off size => cases he; exact h
    | regWrite off size w => exact regWrite_inv h he
    | bufRead a =>
      by_cases hb : s.regs.status.busy = true
      · simp only [if_pos hb] at he; cases he
      · simp only [if_neg hb] at he; exact bufRead_inv h he
    | bufWrite a b =>
      by_cases hb : s.regs.status.busy = true
      · simp only [if_pos hb] at he; cases he
      · simp only [if_neg hb, bufWrite] at he
        by_cases ha : s.inBuf a = true
        · simp only [if_pos ha] at he; cases he; exact bufWrite_inv h ha (by simpa using hb)
        · simp only [if_neg ha] at he; cases he; exact h
  · rw [if_neg hwf] at he; cases he

end Sys2Proof.Machine
end

