-- ==== Sys2Proof/Laws/PerInstr.lean ====
section
/-! SUPPORT. Facts of every command as syntax, one lemma per constructor. -/

namespace Sys2Proof.Laws

/-- A command's word is legal (30_encoding.md R81): RSVD is 0 and OPCODE is the command's own, an assigned one; and a
command has nothing else to check (R83, R84). -/
def WordLegal.Statement (i : Instr) : Prop :=
  Cmd32.wf (encode i) = true ∧ Cmd32.rsvd (encode i) = 0 ∧ Cmd32.opcode (encode i) = i.opcode ∧ i.wf = true

theorem WordLegal.lenDecode : WordLegal.Statement .lenDecode := by unfold WordLegal.Statement; decide
theorem WordLegal.lenEncode : WordLegal.Statement .lenEncode := by unfold WordLegal.Statement; decide
theorem WordLegal.hdrUnpack : WordLegal.Statement .hdrUnpack := by unfold WordLegal.Statement; decide
theorem WordLegal.hdrPack : WordLegal.Statement .hdrPack := by unfold WordLegal.Statement; decide
theorem WordLegal.readPacket : WordLegal.Statement .readPacket := by unfold WordLegal.Statement; decide
theorem WordLegal.sendPacket : WordLegal.Statement .sendPacket := by unfold WordLegal.Statement; decide

end Sys2Proof.Laws
end

