-- ==== Sys2Proof/Tests/Slice0.lean ====
section
/-! SUPPORT. The model's own tests: decoding of words written out from 30_encoding.md, the well-formedness checks refusing
ill-formed terms, single steps against 95_test_vectors.md, and for each statement with hypotheses a state that meets them
all (`witness_…`). -/

namespace Sys2Proof.Tests

open Sys2Proof.Machine

set_option synthInstance.maxSize 1000

/-! ### Helpers -/

/-- The outcome is a next state with this property. -/
def nextIs (o : Host.Outcome State Fault Refusal) (p : State → Bool) : Bool :=
  match o with
  | .next t => p t
  | .fault _ => false
  | .refused _ => false

/-- The outcome is this fault. -/
def faultIs (o : Host.Outcome State Fault Refusal) (f : Fault) : Bool :=
  match o with
  | .fault g => g == f
  | .next _ => false
  | .refused _ => false

/-- The outcome is this refusal. -/
def refusalIs (o : Host.Outcome State Fault Refusal) (r : Refusal) : Bool :=
  match o with
  | .refused q => q == r
  | .next _ => false
  | .fault _ => false

/-- The next state of an outcome that has one. -/
def after (s : State) (o : Host.Outcome State Fault Refusal) : State :=
  match o with
  | .next t => t
  | .fault _ => s
  | .refused _ => s

/-- An idle machine with 64 bytes of storage, capacity 16 and three bytes written. -/
def idle : State :=
  { State.reset with
    cfg := ⟨64, 0x1000, 0x2000⟩, buf := [(0, 0x30), (1, 0x05), (2, 0x68)], regs := { Regs.reset with cap := 16, length := 3 } }

/-- The same with a deadline supplied. -/
def timed : State := { idle with regs := { idle.regs with hasDeadline := true, dlToken := 0xABCD } }

/-- Turns and answers. -/
def turn (t : Turn) (s : State) : State := { s with turns := [t] }
def answer (a : Answer) (s : State) : State := { s with xportAnswers := [a] }

/-- A command issued, and then waiting for its first answer. -/
def issued (i : Instr) (s : State) : State := after s (exec i s)
def waiting (i : Instr) (s : State) : State := after s (step (issued i s))

/-- Two payload bytes of five received, the other three asked for. -/
def paying : State :=
  { issued .readPacket idle with
    regs := { (issued .readPacket idle).regs with xferCount := 2, lenValue := 5 }
    eng := { (issued .readPacket idle).eng with
      phase := .rpPay, wait := .xport, v := 5, off := 2, got := 2, req := ⟨.read, 3, unbounded, []⟩ } }

/-! ### Decoding: words written out bit by bit, RSVD then OPCODE (R80, R82; X-1 to X-5) -/

theorem test_decode_len_decode : decode 0b0000000000000000000000000000_0001 = .ok .lenDecode := by decide
theorem test_decode_len_encode : decode 0b0000000000000000000000000000_0010 = .ok .lenEncode := by decide
theorem test_decode_hdr_unpack : decode 0b0000000000000000000000000000_0011 = .ok .hdrUnpack := by decide
theorem test_decode_hdr_pack : decode 0b0000000000000000000000000000_0100 = .ok .hdrPack := by decide
theorem test_decode_read_packet : decode 0b0000000000000000000000000000_0101 = .ok .readPacket := by decide
theorem test_decode_send_packet : decode 0b0000000000000000000000000000_0110 = .ok .sendPacket := by decide
theorem test_decode_reserved_opcodes :
    decode 0b0000000000000000000000000000_0000 = .error .reservedOpcode ∧
    decode 0b0000000000000000000000000000_0111 = .error .reservedOpcode ∧
    decode 0b0000000000000000000000000000_1111 = .error .reservedOpcode := by decide
theorem test_decode_reserved_bits :
    decode 0b0000000000000000000000000001_0001 = .error .reservedBits ∧
    decode 0b1000000000000000000000000000_0001 = .error .reservedBits := by decide
theorem test_decode_table_word : decodeTableWord 32 5 = some .readPacket ∧ decodeTableWord 32 7 = none := by decide

/-! ### Well-formedness: a term each check refuses -/

theorem test_wf_rsvd : Cmd32.rsvdZero 0x00000015 = false ∧ Cmd32.wf 0x00000015 = false := by decide
theorem test_wf_opcode :
    Cmd32.opcodeAssigned 0 = false ∧ Cmd32.opcodeAssigned 7 = false ∧ Cmd32.wf 0x0000000F = false := by decide
theorem test_wf_good_word : Cmd32.wf 0x00000006 = true := by decide
theorem test_wf_config : Config.wf ⟨0, 0, 256⟩ = false ∧ Config.wf ⟨1, 0, 256⟩ = true := by decide
theorem test_wf_register_size : HostAccess.wf (.regRead 0x04 2) = false ∧ HostAccess.wf (.regWrite 0x04 8 0) = false := by
  decide
theorem test_wf_register_alignment :
    HostAccess.wf (.regRead 0x06 4) = false ∧ HostAccess.wf (.regWrite 0x05 4 0) = false := by decide
theorem test_wf_answer : Answer.wf .read ⟨.ok, 2, 0, [1]⟩ = false ∧ Answer.wf .write ⟨.ok, 2, 0, []⟩ = true := by decide
/-- R90, R91: the DIR bit and the ST field. -/
theorem test_port_encodings :
    Dir.bit .read = 0 ∧ Dir.bit .write = 1 ∧ AnswerStatus.ofBits 0 = .ok ∧ AnswerStatus.ofBits 1 = .err ∧
    AnswerStatus.ofBits 2 = .tmo ∧ AnswerStatus.ofBits 3 = .cls := by decide
/-- R77: an access's place in the Host's address space, and the ends of the two windows. -/
theorem test_host_addresses :
    (HostAccess.regRead 0x24 4).addr idle.cfg = 0x1024 ∧ (HostAccess.bufWrite 3 0).addr idle.cfg = 0x2003 ∧
    regOffset idle.cfg 0x10FF = some 0xFF ∧ regOffset idle.cfg 0x1100 = none ∧ regOffset idle.cfg 0x0FFF = none ∧
    bufIndex idle.cfg 0x203F = some 63 ∧ bufIndex idle.cfg 0x2040 = none := by decide
theorem test_wf_memory : ¬ Memory.wf [(1, 0), (0, 0)] ∧ ¬ Memory.wf [(1, 0), (1, 5)] ∧ Memory.wf State.reset.buf := by
  decide

/-! ### Single steps and meanings -/

/-- 95_test_vectors.md 2.1. -/
theorem test_var_dec_step :
    varDecStep 65 1 0x02 = .done 321 2 ∧ varDecStep 0x1FFFFF 3 0x7F = .done 268435455 4 ∧
    varDecStep 0x1FFFFF 3 0xFF = .malformed ∧ varDecStep 0 0 0x80 = .more 0 1 := by decide
/-- 95_test_vectors.md W1. -/
theorem test_var_encode_bounds :
    varEncode 127 = [0x7F] ∧ varEncode 128 = [0x80, 0x01] ∧ varEncode 16384 = [0x80, 0x80, 0x01] ∧
    varEncode 268435455 = [0xFF, 0xFF, 0xFF, 0x7F] := by decide
/-- The Host writes LEN_ENCODE's word with LEN_VALUE = 321 (R125's example). -/
theorem test_len_encode :
    nextIs (step (turn (.host (.regWrite 0x00 4 0x00000002)) { idle with regs := { idle.regs with lenValue := 321 } }))
      (fun t => t.regs.encBytes == 0x000002C1 && t.regs.readAt 0x1C == 0x00000020 && t.regs.readAt 0x04 == 0x002) := by
  decide
/-- 95_test_vectors.md 2.3. -/
theorem test_len_encode_rejects :
    nextIs (exec .lenEncode { idle with regs := { idle.regs with lenValue := 0x10000000, encBytes := 9 } })
      (fun t => t.regs.readAt 0x04 == 0x706 && t.regs.encBytes == 0 && t.regs.lenInfo.encCount == 0) := by decide
/-- 95_test_vectors.md 2.4. -/
theorem test_hdr_unpack :
    nextIs (exec .hdrUnpack { idle with regs := idle.regs.write .hdr 0x0000F532 })
      (fun t => t.regs.readAt 0x24 == 0x00002332 && t.regs.readAt 0x04 == 0x002) := by decide
/-- 95_test_vectors.md 2.4. -/
theorem test_hdr_pack :
    nextIs (exec .hdrPack { idle with regs := idle.regs.write .hdr 0x000023AB })
      (fun t => t.regs.readAt 0x24 == 0x00002332) := by decide
/-- The reserved bits of HDR ignore a write (2.4). -/
theorem test_hdr_reserved_bits : (idle.regs.write .hdr 0xFFFF0030).readAt 0x24 = 0x00000030 := by decide
/-- The second byte of LEN_DECODE's example C1 02: the writes that become due give 321 and WIRE_COUNT 2 (D-18). -/
theorem test_len_decode_last_byte :
    nextIs (step (answer (.okBytes [0x02]) { waiting .lenDecode idle with
      eng := { (waiting .lenDecode idle).eng with acc := 65, i := 1 } }))
      (fun t => (settleRegs t.todo t.regs).lenValue == 321 && (settleRegs t.todo t.regs).lenInfo.wireCount == 2 &&
        (settleRegs t.todo t.regs).readAt 0x04 == 0x002) := by decide
/-- An ERR answer to LEN_DECODE (D-13). -/
theorem test_len_decode_transport_error :
    nextIs (step (answer (.err 0x1234) (waiting .lenDecode idle)))
      (fun t => (settleRegs t.todo t.regs).readAt 0x2C == 0x1234 && (settleRegs t.todo t.regs).readAt 0x04 == 0x106) := by
  decide
/-- Capacity beyond the storage (P-9) and capacity 0 (P-8). -/
theorem test_read_packet_capacity :
    nextIs (step (issued .readPacket { idle with regs := { idle.regs with cap := 65 } }))
      (fun t => t.regs.readAt 0x04 == 0x706) ∧
    nextIs (step (issued .readPacket { idle with regs := { idle.regs with cap := 0 } }))
      (fun t => t.regs.readAt 0x04 == 0x406) := by decide
/-- Payload bytes "l", "l", "o" after "he": stored at BUF[4 .. 6] (P-11). -/
theorem test_read_packet_payload :
    nextIs (step (answer (.okBytes [0x6C, 0x6C, 0x6F]) paying))
      (fun t => t.todo == [.memWrite 4 0x6C, .memWrite 5 0x6C, .memWrite 6 0x6F, .setGot 5, .setXferCount 5]) := by decide
/-- One write request with the bytes of BUF (S-1's shape). -/
theorem test_send_packet_request :
    nextIs (step (issued .sendPacket idle))
      (fun t => t.log == [.request ⟨.write, 3, 0xFFFFFFFF, [0x30, 0x05, 0x68]⟩] && t.eng.wait == .xport) := by decide
/-- A short write is passed on (W7). -/
theorem test_send_packet_short_write :
    nextIs (step (answer (.okCount 2) (waiting .sendPacket idle)))
      (fun t => (settleRegs t.todo t.regs).xferCount == 2 && (settleRegs t.todo t.regs).readAt 0x04 == 0x002) := by decide
/-- A CMD write while BUSY = 1 is ignored (X-6). -/
theorem test_cmd_write_while_busy :
    nextIs (step (turn (.host (cmdAccess 0x00000003)) (waiting .lenDecode idle)))
      (fun t => t == { waiting .lenDecode idle with turns := [] }) := by decide

/-! ### Witnesses: the hypotheses of the statements, met -/

theorem witness_DecodeTotalAndExact : decode 0x00000001 = .ok .lenDecode ∧ decode 0x00000006 = .ok .sendPacket := by decide
theorem witness_StepIssuesTheDecodedCommand :
    idle.Ready ∧ (turn (.host (cmdAccess 6)) idle).turns = .host (cmdAccess 6) :: [] ∧
    (turn (.host (cmdAccess 6)) idle).regs.status.busy = false ∧ decode 6 = .ok .sendPacket := by decide
theorem witness_IllegalWordCompletesAtOnce :
    (turn (.host (cmdAccess 0)) idle).Inv ∧ (turn (.host (cmdAccess 0)) idle).turns = .host (cmdAccess 0) :: [] ∧
    idle.regs.status.busy = false ∧ (0x00000010 : Word).extractLsb' 4 28 ≠ 0 ∧ (0 : Word).extractLsb' 0 4 = 0 ∧
    7 ≤ ((0x00000007 : Word).extractLsb' 0 4).toNat := by decide
theorem witness_WritesWhileBusyAreIgnored :
    (issued .lenDecode idle).regs.status.busy = true ∧ (0x2C : BitVec 8).toNat % 4 = 0 ∧
    (turn (.host (.regWrite 0x00 4 1)) (issued .lenDecode idle)).turns = .host (.regWrite 0x00 4 1) :: [] ∧
    (turn (.host (.regRead 0xFC 4)) (issued .lenDecode idle)).turns = .host (.regRead 0xFC 4) :: [] := by decide
theorem witness_RegisterReadHasNoSideEffect :
    (0x30 : BitVec 8).toNat % 4 = 0 ∧ (turn (.host (.regRead 0x30 4)) idle).turns = .host (.regRead 0x30 4) :: [] ∧
    (∀ off ∈ ([0x00, 0x04, 0x2C, 0xFC] : List (BitVec 8)), off.toNat % 4 = 0) := by decide
theorem witness_RegisterWriteThenRead :
    ({ idle with turns := [.host (.regWrite 0x24 4 0xFFFF0030), .host (.regRead 0x24 4)] } : State).turns =
      .host (.regWrite 0x24 4 0xFFFF0030) :: .host (.regRead 0x24 4) :: [] ∧
    (∀ off ∈ ([0x04, 0x08, 0x14, 0x24, 0x2C, 0x30, 0xFC] : List (BitVec 8)), off.toNat % 4 = 0 ∧ off ≠ 0) ∧
    idle.regs.status.busy = false := by decide
theorem witness_OtherRegisterAccessesAreRefused :
    (2 ≠ 4 ∨ (0x04 : BitVec 8).toNat % 4 ≠ 0) ∧ (4 ≠ 4 ∨ (0x05 : BitVec 8).toNat % 4 ≠ 0) ∧
    refusalIs (step (turn (.host (.regRead 0x04 2)) idle)) .registerAccessNotAligned32 ∧
    refusalIs (step (turn (.host (.regWrite 0x05 4 0)) idle)) .registerAccessNotAligned32 := by decide
theorem witness_HostBufWriteThenRead :
    ({ idle with turns := [.host (.bufWrite 63 1), .host (.bufRead 63)] } : State).turns =
      .host (.bufWrite 63 1) :: .host (.bufRead 63) :: [] ∧
    idle.regs.status.busy = false ∧ 63 < idle.cfg.bufSize.toNat := by decide
theorem witness_BufAddressesBeyondStorage :
    idle.regs.status.busy = false ∧ idle.cfg.bufSize.toNat ≤ 64 ∧
    (turn (.host (.bufRead 64)) idle).turns = .host (.bufRead 64) :: [] ∧
    (turn (.host (.bufWrite 64 1)) idle).turns = .host (.bufWrite 64 1) :: [] := by decide
theorem witness_UnwrittenBufByteFaults :
    idle.buf.read 63 = none ∧ 63 < idle.cfg.bufSize.toNat ∧
    faultIs (step (turn (.host (.bufRead 63)) idle)) .bufByteNeverWritten := by decide
theorem witness_UnwrittenBufByteFaults_send :
    let s := issued .sendPacket { idle with regs := { idle.regs with length := 4 } }
    s.Inv ∧ s.turns = [] ∧ s.eng.phase = .sp ∧ s.eng.wait = .none ∧ s.todo = [] ∧ 3 < s.eng.lenL.toNat ∧
      s.buf.read 3 = none := by decide
theorem witness_BufAccessWhileBusyIsRefused :
    (issued .readPacket idle).regs.status.busy = true ∧
    refusalIs (step (turn (.host (.bufRead 0)) (issued .readPacket idle))) .bufAccessWhileBusy ∧
    refusalIs (step (turn (.host (.bufWrite 0 1)) (issued .readPacket idle))) .bufAccessWhileBusy := by decide

/-- 0xFF 0x80 0x80 0x00, four bytes for 127 (D-10), is a well-formed field; so is 0x00. -/
theorem witness_wellFormedField : wellFormedField [0xFF, 0x80, 0x80, 0x00] ∧ wellFormedField [0x00] :=
  ⟨⟨[0xFF, 0x80, 0x80], 0x00, rfl, by decide, by unfold allContinue; decide, by decide⟩,
    ⟨[], 0x00, rfl, by decide, by unfold allContinue; decide, by decide⟩⟩
theorem witness_DecoderEndsWithinFourBytes : 4 ≤ ([0x80, 0x80, 0x80, 0x80] : List Byte).length := by decide
theorem witness_CanonicalLengthBands :
    (0 : RemLen).toNat ≤ 127 ∧ 128 ≤ (128 : RemLen).toNat ∧ (16383 : RemLen).toNat ≤ 16383 ∧
    16384 ≤ (16384 : RemLen).toNat ∧ (2097151 : RemLen).toNat ≤ 2097151 ∧ 2097152 ≤ (2097152 : RemLen).toNat ∧
    (268435455 : RemLen).toNat ≤ 268435455 := by decide

/-- A transport that delivers 80 01, after LEN_ENCODE of 128 (W1). -/
theorem witness_EncodeThenDecodeCommands :
    let s : State := { timed with
      regs := { timed.regs with lenValue := 128 }, xportAnswers := byteAnswers [0x80, 0x01] ++ [.cls], deadlineAnswers := [9, 0] }
    s.Ready ∧ s.regs.lenValue.toNat ≤ 268435455 ∧
      nextIs (exec .lenEncode s) (fun t => s.xportAnswers ==
        byteAnswers ((List.range t.regs.lenInfo.encCount.toNat).map (fun k => t.regs.encBytes.extractLsb' (8 * k) 8)) ++ [.cls]
        && t.regs.lenInfo.encCount.toNat ≤ s.deadlineAnswers.length) := by decide

theorem witness_LenDecodeCompletes :
    let s : State := { timed with xportAnswers := byteAnswers [0xFF, 0x80, 0x80, 0x00] ++ [.cls], deadlineAnswers := [9, 8, 7, 0] }
    s.Ready ∧ s.xportAnswers = byteAnswers [0xFF, 0x80, 0x80, 0x00] ++ [.cls] ∧ 4 ≤ s.deadlineAnswers.length := by decide
theorem witness_MalformedLengthEndsTheCommand :
    let bs : List Byte := [0x80, 0xFF, 0x80, 0xFF]
    let s : State := { idle with xportAnswers := byteAnswers bs }
    let r : State := { idle with xportAnswers := byteAnswers (0x30 :: bs) }
    s.Ready ∧ r.Ready ∧ bs.length = 4 ∧ (∀ b ∈ bs, contBit b = true) ∧ 1 ≤ r.regs.cap.toNat ∧
      r.regs.cap.toNat ≤ r.cfg.bufSize.toNat ∧ s.regs.hasDeadline = false ∧ r.regs.hasDeadline = false := by decide
theorem witness_LenDecodeKeepsTheFailuresCode :
    let s : State := { idle with xportAnswers := byteAnswers [0x80, 0x80, 0x80] ++ .err 7 :: [] }
    let r : State := { idle with xportAnswers := byteAnswers (0x30 :: [0x80, 0x80, 0x80]) ++ .err 7 :: [] }
    s.Ready ∧ r.Ready ∧ 1 ≤ r.regs.cap.toNat ∧ r.regs.cap.toNat ≤ r.cfg.bufSize.toNat ∧ r.regs.hasDeadline = false ∧ (∀ b ∈ ([0x80, 0x80, 0x80] : List Byte), contBit b = true) ∧ (Answer.err 7).wf .read = true ∧
      readFailure 1 (.err 7) = some .transportError ∧ readFailure 1 (.okBytes []) = some .xportContract ∧
      s.regs.hasDeadline = false := by decide
theorem witness_ReadPacketCapacityCheck :
    let s : State := { idle with regs := { idle.regs with cap := 65 } }
    let z : State := { idle with regs := { idle.regs with cap := 0 } }
    s.Inv ∧ s.regs.status.busy = false ∧ s.cfg.bufSize.toNat < s.regs.cap.toNat ∧ z.Inv ∧ z.regs.cap = 0 := by decide
theorem witness_ReadPacketHeaderFailure :
    let s : State := { idle with xportAnswers := .tmo :: [] }
    s.Ready ∧ 1 ≤ s.regs.cap.toNat ∧ s.regs.cap.toNat ≤ s.cfg.bufSize.toNat ∧ Answer.tmo.wf .read = true ∧
      readFailure 1 .tmo = some .timeoutExpired ∧ s.regs.hasDeadline = false := by decide

/-- The packet of P-11 with a length field of two bytes, in two chunks, into a capacity that just fits. -/
theorem witness_ReadPacketStoresThePacket :
    let chunks : List (List Byte) := [[0x68, 0x65], [0x6C, 0x6C, 0x6F]]
    let s : State := { idle with
      regs := { idle.regs with cap := 7 }
      xportAnswers := byteAnswers (0x30 :: [0x85, 0x00]) ++ chunks.map Answer.okBytes ++ [] }
    s.Ready ∧ (5 : RemLen).toNat = groupSum [0x85, 0x00] ∧ (∀ c ∈ chunks, c ≠ []) ∧
      chunks.flatten.length = (5 : RemLen).toNat ∧ 1 + encLen 5 + (5 : RemLen).toNat ≤ s.regs.cap.toNat ∧
      s.regs.cap.toNat ≤ s.cfg.bufSize.toNat ∧ s.regs.hasDeadline = false := by decide
theorem witness_ReadPacketStoresThePacket_field : wellFormedField [0x85, 0x00] :=
  ⟨[0x85], 0x00, rfl, by decide, by unfold allContinue; decide, by decide⟩
/-- P-3: one byte too few; P-10: not even the length fits. -/
theorem witness_ReadPacketOverflow :
    let s : State := { idle with regs := { idle.regs with cap := 6 }, xportAnswers := byteAnswers (0x30 :: [0x05]) ++ [] }
    let z : State := { idle with regs := { idle.regs with cap := 1 }, xportAnswers := byteAnswers (0x30 :: [0x00]) ++ [] }
    s.Ready ∧ z.Ready ∧ (5 : RemLen).toNat = groupSum [0x05] ∧ (0 : RemLen).toNat = groupSum [0x00] ∧
      (5 : RemLen) ≠ 0 ∧ s.regs.cap.toNat < 1 + encLen 5 + (5 : RemLen).toNat ∧ z.regs.cap.toNat < 1 + encLen 0 ∧
      1 ≤ z.regs.cap.toNat ∧ s.regs.cap.toNat ≤ s.cfg.bufSize.toNat ∧ s.regs.hasDeadline = false := by decide
theorem witness_ReadPacketOverflow_field : wellFormedField [0x05] :=
  ⟨[], 0x05, rfl, by decide, by unfold allContinue; decide, by decide⟩
theorem witness_ReadPacketPayloadFailure :
    (answer .cls paying).Inv ∧ paying.turns = [] ∧ paying.eng.phase = .rpPay ∧ paying.eng.wait = .xport ∧
      Answer.cls.wf .read = true ∧ readFailure paying.eng.req.n .cls = some .connectionClosed ∧
      (answer .cls paying).xportAnswers = .cls :: [] := by decide
theorem witness_SendPacketMakesOneCall :
    let s := answer (.okCount 2) idle
    let data : List Byte := [0x30, 0x05, 0x68]
    s.Ready ∧ s.regs.length.toNat ≤ s.cfg.bufSize.toNat ∧ data.length = s.regs.length.toNat ∧
      (∀ a < data.length, s.buf.read a = data[a]?) ∧ s.xportAnswers = .okCount 2 :: [] ∧ s.regs.hasDeadline = false := by
  decide
theorem witness_SendPacketLengthCheck :
    let s : State := { idle with regs := { idle.regs with length := 65 } }
    s.Inv ∧ s.regs.status.busy = false ∧ s.cfg.bufSize.toNat < s.regs.length.toNat := by decide
theorem witness_CallBeginsWithItsTimeout :
    let s := issued .lenDecode idle
    let z := issued .lenDecode timed
    s.turns = [] ∧ s.eng.phase ≠ .idle ∧ s.eng.wait = .none ∧ s.todo = [] ∧ plan s = .call .read 1 [] ∧
      s.eng.hasL = false ∧ plan z = .call .read 1 [] ∧ z.eng.hasL = true ∧ z.todo = [] := by decide
theorem witness_DeadlineAnswerIsPassedOn :
    let s : State := { waiting .lenDecode timed with deadlineAnswers := [0] }
    s.Inv ∧ s.turns = [] ∧ s.eng.wait = .timer ∧ s.deadlineAnswers = 0 :: [] ∧ plan s = .call .read 1 [] := by decide
theorem witness_StrayAnswersAreDiscarded :
    (turn .reset (waiting .lenDecode idle)).turns = .reset :: [] ∧
    (turn .transport (answer .cls idle)).turns = .transport :: [] ∧
    (turn .transport (answer .cls idle)).eng.wait = .none ∧ (turn .transport (answer .cls idle)).xportAnswers = .cls :: [] ∧
    (let s : State := { turn .deadlineSource idle with deadlineAnswers := [5] }
     s.turns = .deadlineSource :: [] ∧ s.eng.wait = .none ∧ s.deadlineAnswers = 5 :: []) := by decide
theorem witness_FailedReadAnswerEndsTheCommand :
    let s := waiting .lenDecode idle
    s.Inv ∧ (answer .cls s).Inv ∧ s.turns = [] ∧ s.eng.wait = .xport ∧ s.eng.req.dir = .read ∧ (Answer.err 7).st = .err ∧
      Answer.tmo.st = .tmo ∧ Answer.cls.st = .cls ∧ (Answer.okBytes [1, 2]).st = .ok ∧
      (Answer.okBytes [1, 2]).rdata.length = (Answer.okBytes [1, 2]).n.toNat ∧
      s.eng.req.n.toNat < (Answer.okBytes [1, 2]).n.toNat ∧ (Answer.okBytes []).n = 0 := by decide
theorem witness_ResetClearsAllButBuf : (turn .reset paying).turns = .reset :: [] ∧ paying.regs.status.busy = true := by
  decide
theorem witness_WaitingAndIdleChangeNothing :
    (waiting .lenDecode idle).Inv ∧ (waiting .lenDecode idle).turns = [] ∧ (waiting .lenDecode idle).eng.wait = .xport ∧
    (waiting .lenDecode idle).xportAnswers = [] ∧ (waiting .lenDecode timed).Inv ∧
    (waiting .lenDecode timed).eng.wait = .timer ∧ (waiting .lenDecode timed).deadlineAnswers = [] ∧ idle.Ready := by decide
theorem witness_EveryStepKeepsTheInvariant :
    (answer (.okBytes [0x6C]) paying).Inv ∧ nextIs (step (answer (.okBytes [0x6C]) paying)) (fun t => t != paying) := by
  decide
theorem witness_OnlyUnwrittenReadsFault :
    let s := turn (.host (.bufRead 63)) idle
    let z := issued .sendPacket { idle with regs := { idle.regs with length := 4 } }
    s.Inv ∧ faultIs (step s) .bufByteNeverWritten ∧ z.Inv ∧ faultIs (step z) .bufByteNeverWritten := by decide
theorem witness_OnlyInterfaceViolationsAreRefused :
    refusalIs (step (turn (.host (.regRead 0x04 2)) idle)) .registerAccessNotAligned32 ∧
    refusalIs (step (turn (.host (.bufRead 0)) paying)) .bufAccessWhileBusy ∧
    refusalIs (step (answer ⟨.ok, 2, 0, [1]⟩ paying)) .answerOutsidePortEncoding := by decide
theorem witness_CapacityBoundsBufWrites :
    let s : State := { paying with eng := { paying.eng with wait := .none }, todo := [.memWrite 4 0x6C, .setGot 3, .setXferCount 3] }
    s.Inv ∧ s.eng.phase.reading = true ∧ s.eng.capL.toNat ≤ 16 ∧ nextIs (step s) (fun t => t.buf.read 4 == some 0x6C) := by
  decide
theorem witness_OnlyHostAndReadPacketWriteBuf :
    let s := turn (.host (.bufWrite 5 7)) idle
    s.Inv ∧ nextIs (step s) (fun t => t.buf.read 5 != s.buf.read 5) := by decide
theorem witness_NoEmptyReadRequest :
    let s := issued .lenDecode idle
    let r : Request := ⟨.read, 1, unbounded, []⟩
    s.Inv ∧ nextIs (step s) (fun t => t.log == s.log ++ [.request r]) ∧ r.dir = .read := by decide
theorem witness_OneRequestInFlight :
    (issued .lenDecode timed).Inv ∧ nextIs (step (issued .lenDecode timed)) (fun t => t.log == [.query 0xABCD]) := by decide
theorem witness_LatchedOperandsAreFixed :
    let s := turn (.host (.regWrite 0x08 4 1)) paying
    s.Inv ∧ s.regs.status.busy = true ∧ s.turns.head? ≠ some .reset ∧ nextIs (step s) (fun t => t.regs.cap == 16) := by decide
theorem witness_ResultsPersistWhileIdle :
    let s := turn (.host (.bufWrite 0 1)) idle
    s.Inv ∧ s.regs.status.busy = false ∧ s.turns = .host (.bufWrite 0 1) :: [] ∧ nextIs (step s) (fun _ => true) := by decide
theorem witness_StatusHasThreeWriters :
    let s := turn (.host (cmdAccess 3)) idle
    let z : State := { paying with eng := { paying.eng with wait := .none }, todo := [.finish .connectionClosed] }
    let r := turn .reset paying
    s.Inv ∧ z.Inv ∧ r.Inv ∧ nextIs (step s) (fun t => t.regs.status != s.regs.status) ∧
      nextIs (step z) (fun t => t.regs.status != z.regs.status) ∧ nextIs (step r) (fun t => t.regs.status != r.regs.status) := by
  decide

end Sys2Proof.Tests
end

section
/-! What one step sends out of the ports: an inversion lemma per operation that can send, a frame lemma per operation that
cannot, and from them O51. -/

namespace Sys2Proof.Machine

/-- The Host is handed the answer to one of its reads (30_encoding.md R94). -/
def AnswersHost (s t : State) : Prop :=
  (∃ (off : BitVec 8) (v : Word), t.log = s.log ++ [.regRead off v]) ∨
    ∃ (a : Nat) (b : Byte), t.log = s.log ++ [.bufRead a b]

/-- The Engine, waiting for neither agent, queries the DeadlineSource or sends a request, and waits for that answer from
then on (00_scope.md R8, 42_packet_framer.md R162). -/
def AsksOneAgent (s t : State) : Prop :=
  (t.log = s.log ++ [.query s.eng.tokL] ∧ s.eng.wait = .none ∧ t.eng.wait = .timer) ∨
    ∃ r : Request, t.log = s.log ++ [.request r] ∧ s.eng.wait = .none ∧ t.eng.wait = .xport ∧ t.eng.req = r

/-! ### The Engine -/

/-- Sending either sends the planned call's request and waits for the Transport, or ends a complete rule. -/
theorem sendRequest_cases {s t : State} {timeout : Word} (h : sendRequest timeout s = .next t) :
    (∃ d n data, plan s = .call d n data ∧ t = emit (.request ⟨d, n, timeout, data⟩)
      { s with eng := { s.eng with req := ⟨d, n, timeout, data⟩, wait := .xport } }) ∨
    (plan s = .complete ∧ t = finish .none s) := by
  unfold sendRequest at h
  split at h
  case h_1 d n data hplan => cases h; exact .inl ⟨d, n, data, hplan, rfl⟩
  case h_2 hplan => cases h; exact .inr ⟨hplan, rfl⟩
  case h_3 => cases h

/-- A call begins with the query under a deadline and with the request without one; a complete rule ends. -/
theorem beginCall_cases {s t : State} (h : beginCall s = .next t) :
    (s.eng.hasL = true ∧ (∃ d n data, plan s = .call d n data) ∧
      t = emit (.query s.eng.tokL) { s with eng := { s.eng with wait := .timer } }) ∨
    (s.eng.hasL = false ∧ sendRequest unbounded s = .next t) ∨
    (plan s = .complete ∧ t = finish .none s) := by
  unfold beginCall at h
  split at h
  case h_1 d n data hplan =>
    split_ifs at h with hl
    · cases h; exact .inl ⟨hl, ⟨d, n, data, hplan⟩, rfl⟩
    · exact .inr (.inl ⟨by simpa using hl, h⟩)
  case h_2 hplan => cases h; exact .inr (.inr ⟨hplan, rfl⟩)
  case h_3 => cases h

/-- An Engine step does nothing, or performs the next write that is due, or begins the next call. -/
theorem engineStep_cases {s t : State} (h : engineStep s = .next t) :
    t = s ∨ (s.eng.phase ≠ .idle ∧ s.eng.wait = .none ∧
      ((∃ op rest, s.todo = op :: rest ∧ perform op (dropTodo s) = .next t) ∨ (s.todo = [] ∧ beginCall s = .next t))) := by
  unfold engineStep at h
  split at h
  case h_1 | h_2 | h_3 => cases h; exact .inl rfl
  case h_4 hw hp =>
    refine .inr ⟨hp, hw, ?_⟩
    split at h
    case h_1 op rest hd => exact .inl ⟨op, rest, hd, h⟩
    case h_2 hd => exact .inr ⟨hd, h⟩

/-- `sendRequest` sends one request at most. -/
theorem sendRequest_log {s t : State} {timeout : Word} (hw : s.eng.wait = .none)
    (h : sendRequest timeout s = .next t) : t.log = s.log ∨ AsksOneAgent s t := by
  obtain ⟨d, n, data, -, rfl⟩ | ⟨-, rfl⟩ := sendRequest_cases h
  · exact .inr (.inr ⟨_, rfl, hw, rfl, rfl⟩)
  · exact .inl rfl

/-- `beginCall` sends one query or one request at most. -/
theorem beginCall_log {s t : State} (hw : s.eng.wait = .none) (h : beginCall s = .next t) :
    t.log = s.log ∨ AsksOneAgent s t := by
  obtain ⟨-, -, rfl⟩ | ⟨-, hsend⟩ | ⟨-, rfl⟩ := beginCall_cases h
  · exact .inr (.inl ⟨rfl, hw, rfl⟩)
  · exact sendRequest_log hw hsend
  · exact .inl rfl

/-- Of the writes of a command's rule only `send` sends something. -/
theorem perform_log {op : Micro} {s t : State} (hw : s.eng.wait = .none) (h : perform op s = .next t) :
    t.log = s.log ∨ AsksOneAgent s t := by
  cases op with
  | send timeout => exact sendRequest_log hw h
  | memWrite a b =>
    simp only [perform] at h
    split_ifs at h
    cases h
    exact .inl rfl
  | _ => cases h; exact .inl rfl

/-- An Engine step asks one agent at most, and only while it waits for neither. -/
theorem engineStep_log {s t : State} (h : engineStep s = .next t) : t.log = s.log ∨ AsksOneAgent s t := by
  obtain rfl | ⟨-, hw, ⟨op, rest, -, hperf⟩ | ⟨-, hcall⟩⟩ := engineStep_cases h
  · exact .inl rfl
  · exact perform_log (s := dropTodo s) hw hperf
  · exact beginCall_log hw hcall

/-! ### The agents' answers -/

/-- Taking or discarding a Transport answer sends nothing. -/
theorem transportStep_log {s t : State} (h : transportStep s = .next t) : t.log = s.log := by
  unfold transportStep at h
  split at h
  case h_1 => cases h; rfl
  case h_2 =>
    dsimp only at h
    split_ifs at h <;> cases h <;> rfl

/-- Taking or discarding a DeadlineSource answer sends nothing. -/
theorem deadlineStep_log {s t : State} (h : deadlineStep s = .next t) : t.log = s.log := by
  unfold deadlineStep at h
  split at h
  case h_1 => cases h; rfl
  case h_2 =>
    dsimp only at h
    split_ifs at h <;> cases h <;> rfl

/-! ### The Host -/

/-- No command sends anything at its issue. -/
theorem exec_log {i : Instr} {s t : State} (h : exec i s = .next t) : t.log = s.log := by
  cases i with
  | lenEncode =>
    simp only [exec, execLenEncode] at h
    split_ifs at h <;> cases h <;> rfl
  | _ => cases h; rfl

/-- A CMD write sends nothing. -/
theorem cmdWrite_log {w : Word} {s t : State} (h : cmdWrite w s = .next t) : t.log = s.log := by
  unfold cmdWrite at h
  split at h
  case h_1 i _ => exact exec_log h
  case h_2 => cases h; rfl

/-- A host register write sends nothing. -/
theorem regWrite_log {off : BitVec 8} {w : Word} {s t : State} (h : regWrite off w s = .next t) :
    t.log = s.log := by
  unfold regWrite at h
  split_ifs at h
  · cases h; rfl
  · split at h
    case h_1 => exact cmdWrite_log h
    case h_2 | h_3 => cases h; rfl

/-- A host BUF read hands out the one byte asked for. -/
theorem bufRead_log {a : Nat} {s t : State} (h : bufRead a s = .next t) : ∃ b, t.log = s.log ++ [.bufRead a b] := by
  unfold bufRead at h
  split_ifs at h
  · split at h
    case h_1 b _ => cases h; exact ⟨b, rfl⟩
    case h_2 => cases h
  · cases h; exact ⟨0, rfl⟩

/-- A host BUF write sends nothing. -/
theorem bufWrite_log {a : Nat} {b : Byte} {s t : State} (h : bufWrite a b s = .next t) : t.log = s.log := by
  unfold bufWrite at h
  split_ifs at h <;> cases h <;> rfl

/-- A host access hands out the answer to one read at most, and asks no agent. -/
theorem hostStep_log {a : HostAccess} {s t : State} (h : hostStep a s = .next t) :
    t.log = s.log ∨ AnswersHost s t := by
  unfold hostStep at h
  cases a with
  | regRead off size =>
    dsimp only at h
    split_ifs at h
    cases h
    exact .inr (.inl ⟨off, _, rfl⟩)
  | regWrite off size w =>
    dsimp only at h
    split_ifs at h
    exact .inl (regWrite_log h)
  | bufRead a =>
    dsimp only at h
    split_ifs at h
    exact .inr (.inr ⟨a, bufRead_log h⟩)
  | bufWrite a b =>
    dsimp only at h
    split_ifs at h
    exact .inl (bufWrite_log h)

/-! ### One step -/

/-- A turn sends nothing, answers one host read, or asks one agent. -/
theorem turnStep_log {a : Turn} {s t : State} (h : turnStep a s = .next t) :
    t.log = s.log ∨ AnswersHost s t ∨ AsksOneAgent s t := by
  cases a with
  | host a => exact (hostStep_log h).imp_right .inl
  | engine => exact (engineStep_log h).imp_right .inr
  | transport => exact .inl (transportStep_log h)
  | deadlineSource => exact .inl (deadlineStep_log h)
  | reset => cases h; exact .inl rfl

/-- With no turn given, only the Engine's step can send anything. -/
theorem defaultStep_log {s t : State} (h : defaultStep s = .next t) : t.log = s.log ∨ AsksOneAgent s t := by
  unfold defaultStep at h
  split at h
  · exact engineStep_log h
  · exact .inl (deadlineStep_log h)
  · exact .inl (transportStep_log h)

/-- A step sends nothing, answers one host read, or asks one agent. -/
theorem step_log {s t : State} (h : step s = .next t) : t.log = s.log ∨ AnswersHost s t ∨ AsksOneAgent s t := by
  cases hturns : s.turns with
  | nil => exact (defaultStep_log (step_default hturns ▸ h)).imp_right .inr
  | cons a rest => exact turnStep_log (s := { s with turns := rest }) (step_turn hturns ▸ h)

/-- Settles O51: the only places that ask an agent are `beginCall` and `sendRequest`, and `engineStep` reaches them only
with `wait` = NONE. So it holds from every state, the invariant's or not. -/
theorem oneRequestInFlight : Obligations.OneRequestInFlight := by
  intro s t _ h
  obtain hsame | (hreg | hbuf) | (hquery | hrequest) := step_log h
  · exact .inl hsame
  · exact .inr (.inl hreg)
  · exact .inr (.inr (.inl hbuf))
  · exact .inr (.inr (.inr (.inl hquery)))
  · exact .inr (.inr (.inr (.inr hrequest)))

end Sys2Proof.Machine
end

section
/-! The invariant at reset (O44), and over a step of any agent (O45): the laws of the single operations, put together along
`turnStep` and `defaultStep`. -/

namespace Sys2Proof.Machine

/-- The invariant does not speak of whose turn it is. -/
theorem State.Inv.withTurns {s : State} (h : s.Inv) (turns : List Turn) : ({ s with turns := turns } : State).Inv := h

/-- Every agent's turn keeps the invariant. -/
theorem turnStep_inv {a : Turn} {s t : State} (h : s.Inv) (ht : turnStep a s = .next t) : t.Inv := by
  cases a with
  | host a => exact hostStep_inv h ht
  | engine => exact engineStep_inv h ht
  | transport => exact transportStep_inv h ht
  | deadlineSource => exact deadlineStep_inv h ht
  | reset => cases ht; exact resetStep_inv h

/-- The step that is taken when no turn is given keeps the invariant. -/
theorem defaultStep_inv {s t : State} (h : s.Inv) (ht : defaultStep s = .next t) : t.Inv := by
  unfold defaultStep at ht
  split at ht
  case h_1 => exact engineStep_inv h ht
  case h_2 => exact deadlineStep_inv h ht
  case h_3 => exact transportStep_inv h ht

/-- Settles O45: a step is an agent's turn or the default step, and both keep the invariant. -/
theorem everyStepKeepsTheInvariant : Obligations.EveryStepKeepsTheInvariant := by
  intro s t h hstep
  cases hturns : s.turns with
  | nil => exact defaultStep_inv h (step_default hturns ▸ hstep)
  | cons a rest => exact turnStep_inv (h.withTurns rest) (step_turn hturns ▸ hstep)

/-- Settles O44: after reset the machine is idle, and an idle machine that waits for nothing meets the invariant. -/
theorem invariantAtReset : Obligations.InvariantAtReset :=
  idle_inv ⟨rfl, List.Pairwise.nil, fun _ hc => absurd hc List.not_mem_nil, rfl⟩ rfl rfl rfl rfl rfl

end Sys2Proof.Machine
end

section
/-! The register file: where the registers stand, where their fields stand in a word, what a read hands out and what a
write leaves. -/

namespace Sys2Proof.Machine

/-! ### Fields of a word -/

/-- A field placed at bit k of a word is read back there. -/
theorem extractLsb'_field_self {n k : Nat} (x : BitVec n) (h : k + n ≤ 32) :
    (x.setWidth 32 <<< k).extractLsb' k n = x := by
  ext i hi
  have hlt : k + i < 32 := by omega
  simp [hlt, hi]

/-- A field placed at bit k of a word leaves every bit outside it 0. -/
theorem extractLsb'_field_disjoint {n k lo len : Nat} (x : BitVec n) (h : lo + len ≤ k ∨ k + n ≤ lo) :
    (x.setWidth 32 <<< k).extractLsb' lo len = 0 := by
  ext i hi
  have hout : k ≤ lo + i → x.getLsbD (lo + i - k) = false := fun _ => BitVec.getLsbD_of_ge _ _ (by omega)
  simp only [BitVec.getElem_extractLsb', BitVec.getLsbD_shiftLeft, BitVec.getLsbD_setWidth, BitVec.ofNat_eq_ofNat,
    BitVec.getElem_zero]
  grind

/-- The same of a field that stands at bit 0. -/
theorem extractLsb'_lowField_self {n : Nat} (x : BitVec n) (h : n ≤ 32) : (x.setWidth 32).extractLsb' 0 n = x := by
  simpa using extractLsb'_field_self (k := 0) x (by omega)

/-- Above a field that stands at bit 0 every bit is 0. -/
theorem extractLsb'_lowField_above {n lo len : Nat} (x : BitVec n) (h : n ≤ lo) :
    (x.setWidth 32).extractLsb' lo len = 0 := by
  simpa using extractLsb'_field_disjoint (k := 0) x (.inr (by omega : 0 + n ≤ lo))

/-- A word and the mask of its n low bits is those bits alone. -/
theorem and_lowMask (w : Word) {n : Nat} (h : n ≤ 32) :
    w &&& BitVec.ofNat 32 (2 ^ n - 1) = (w.setWidth n).setWidth 32 := by
  have hp : 2 ^ n ≤ 2 ^ 32 := Nat.pow_le_pow_right (by omega) h
  have hmod : w.toNat % 2 ^ n < 2 ^ n := Nat.mod_lt _ (by positivity)
  refine BitVec.eq_of_toNat_eq ?_
  rw [BitVec.toNat_and, BitVec.toNat_ofNat, Nat.mod_eq_of_lt (a := 2 ^ n - 1) (by omega),
    Nat.and_two_pow_sub_one_eq_mod, BitVec.toNat_setWidth, BitVec.toNat_setWidth, Nat.mod_eq_of_lt (hmod.trans_le hp)]

/-- STATUS field by field (10_state.md R25). -/
theorem Status.toWord_fields (s : Status) :
    s.toWord.getLsbD 0 = s.busy ∧ s.toWord.getLsbD 1 = s.done ∧ s.toWord.getLsbD 2 = s.err ∧
      s.toWord.extractLsb' 3 5 = 0 ∧ s.toWord.extractLsb' 8 4 = s.errcode.bits ∧ s.toWord.extractLsb' 12 20 = 0 := by
  unfold Status.toWord
  refine ⟨by simp, by simp, by simp, ?_, ?_, ?_⟩ <;>
    simp [BitVec.extractLsb'_or, extractLsb'_field_self, extractLsb'_field_disjoint, extractLsb'_lowField_above]

/-- LEN_INFO field by field (R32). -/
theorem LenInfo.toWord_fields (l : LenInfo) :
    l.toWord.extractLsb' 0 3 = l.wireCount ∧ l.toWord.getLsbD 3 = false ∧ l.toWord.extractLsb' 4 3 = l.encCount ∧
      l.toWord.getLsbD 7 = false ∧ l.toWord.extractLsb' 8 3 = l.offset ∧ l.toWord.extractLsb' 11 21 = 0 := by
  unfold LenInfo.toWord
  refine ⟨?_, by simp, ?_, by simp, ?_, ?_⟩ <;>
    simp [BitVec.extractLsb'_or, extractLsb'_field_self, extractLsb'_field_disjoint, extractLsb'_lowField_self,
      extractLsb'_lowField_above]

/-- HDR field by field (R34). -/
theorem Hdr.toWord_fields (h : Hdr) :
    h.toWord.extractLsb' 0 8 = h.byte ∧ h.toWord.extractLsb' 8 4 = h.type ∧ h.toWord.extractLsb' 12 4 = h.flags ∧
      h.toWord.extractLsb' 16 16 = 0 := by
  unfold Hdr.toWord
  refine ⟨?_, ?_, ?_, ?_⟩ <;>
    simp [BitVec.extractLsb'_or, extractLsb'_field_self, extractLsb'_field_disjoint, extractLsb'_lowField_self,
      extractLsb'_lowField_above]

/-- HDR written with a word holds its 16 low bits (R34). -/
theorem Hdr.toWord_ofWord (w : Word) : (Hdr.ofWord w).toWord = w &&& 0x0000FFFF := by
  rw [show (0x0000FFFF : Word) = BitVec.ofNat 32 (2 ^ 16 - 1) from rfl, and_lowMask w (by omega)]
  ext i hi
  simp only [Hdr.toWord, Hdr.ofWord, BitVec.getElem_or, BitVec.getElem_shiftLeft, BitVec.getElem_setWidth,
    BitVec.getLsbD_setWidth, BitVec.getLsbD_extractLsb']
  grind

/-- DL_CTRL written with a word holds its bit 0 (R30). -/
theorem ofBool_getLsbD_zero (w : Word) : (BitVec.ofBool (w.getLsbD 0)).setWidth 32 = w &&& 0x00000001 := by
  ext i hi
  by_cases h : i = 0 <;> simp [h]

/-! ### The register map -/

/-- The offset of a register (R21). -/
def Reg.offset : Reg → BitVec 8
  | .cmd => 0x00
  | .status => 0x04
  | .cap => 0x08
  | .length => 0x0C
  | .dlToken => 0x10
  | .dlCtrl => 0x14
  | .lenValue => 0x18
  | .lenInfo => 0x1C
  | .encBytes => 0x20
  | .hdr => 0x24
  | .xferCount => 0x28
  | .xportCode => 0x2C

/-- A register is found at its own offset and at no other, so two offsets never name the same register. -/
theorem Reg.ofOffset_eq_some {off : BitVec 8} {x : Reg} : Reg.ofOffset off = some x ↔ off = x.offset := by
  constructor
  · intro h
    unfold Reg.ofOffset at h
    split at h <;> cases h <;> rfl
  · rintro rfl
    cases x <;> rfl

@[simp] theorem Reg.ofOffset_offset (x : Reg) : Reg.ofOffset x.offset = some x := Reg.ofOffset_eq_some.2 rfl

/-- The offsets from 0x30 on are unused (R21). -/
theorem Reg.ofOffset_unused {off : BitVec 8} (h : 0x30 ≤ off.toNat) : Reg.ofOffset off = none := by
  refine Option.eq_none_iff_forall_ne_some.2 fun x hx => ?_
  rw [Reg.ofOffset_eq_some.1 hx] at h
  cases x <;> exact absurd h (by decide)

/-! ### Reading and writing the register file -/

@[simp] theorem Regs.readAt_offset (r : Regs) (x : Reg) : r.readAt x.offset = r.read x := by
  simp [Regs.readAt]

/-- An unused offset reads 0 (R22). -/
theorem Regs.readAt_of_none (r : Regs) {off : BitVec 8} (h : Reg.ofOffset off = none) : r.readAt off = 0 := by
  simp [Regs.readAt, h]

/-- The register file after a host write at an offset: an unused offset ignores it (R22). -/
def Regs.writeAt (r : Regs) (off : BitVec 8) (w : Word) : Regs :=
  match Reg.ofOffset off with
  | some x => r.write x w
  | none => r

@[simp] theorem Regs.writeAt_offset (r : Regs) (x : Reg) (w : Word) : r.writeAt x.offset w = r.write x w := by
  simp [Regs.writeAt]

/-- An unused offset ignores a write (R22). -/
theorem Regs.writeAt_of_none (r : Regs) {off : BitVec 8} (w : Word) (h : Reg.ofOffset off = none) :
    r.writeAt off w = r := by
  simp [Regs.writeAt, h]

/-- No host write stores anything in STATUS (R22, R26). -/
@[simp] theorem Regs.writeAt_status (r : Regs) (off : BitVec 8) (w : Word) : (r.writeAt off w).status = r.status := by
  cases hx : Reg.ofOffset off with
  | none => rw [Regs.writeAt_of_none r w hx]
  | some x =>
    obtain rfl := Reg.ofOffset_eq_some.1 hx
    cases x <;> rfl

/-- A write to a register changes what no other register reads as. -/
theorem Regs.read_write_of_ne (r : Regs) {x y : Reg} (w : Word) (h : y ≠ x) : (r.write x w).read y = r.read y := by
  cases x <;> cases y <;> first | rfl | exact absurd rfl h

/-- A write at an offset changes what no other offset reads as. -/
theorem Regs.readAt_writeAt_of_ne (r : Regs) {off o : BitVec 8} (w : Word) (h : o ≠ off) :
    (r.writeAt off w).readAt o = r.readAt o := by
  cases hx : Reg.ofOffset off with
  | none => rw [Regs.writeAt_of_none r w hx]
  | some x =>
    obtain rfl := Reg.ofOffset_eq_some.1 hx
    cases hy : Reg.ofOffset o with
    | none => rw [Regs.readAt_of_none _ hy, Regs.readAt_of_none _ hy]
    | some y =>
      obtain rfl := Reg.ofOffset_eq_some.1 hy
      simpa using Regs.read_write_of_ne r w (ne_of_apply_ne Reg.offset h)

/-- What a write at an offset leaves to be read there: the word in a full-width RW register, its writable bits in DL_CTRL
and HDR, and what was there before in a register the Host cannot write (R22, R27 to R34). -/
theorem Regs.readAt_writeAt_self (r : Regs) (off : BitVec 8) (w : Word) :
    (r.writeAt off w).readAt off =
      if off = 0x08 ∨ off = 0x0C ∨ off = 0x10 ∨ off = 0x18 then w
      else if off = 0x14 then w &&& 0x00000001
      else if off = 0x24 then w &&& 0x0000FFFF
      else r.readAt off := by
  split_ifs with hfull hdl hhdr
  · rcases hfull with rfl | rfl | rfl | rfl <;> rfl
  · subst hdl; exact ofBool_getLsbD_zero w
  · subst hhdr; exact Hdr.toWord_ofWord w
  · cases hx : Reg.ofOffset off with
    | none => rw [Regs.writeAt_of_none r w hx]
    | some x =>
      obtain rfl := Reg.ofOffset_eq_some.1 hx
      cases x with
      | cap | length | dlToken | lenValue => exact absurd (by decide) hfull
      | dlCtrl => exact absurd rfl hdl
      | hdr => exact absurd rfl hhdr
      | _ => rfl

/-- Settles O6: CMD and DL_CTRL by their reading, STATUS, LEN_INFO and HDR by the fields of their words. -/
theorem registerFieldsAtTheirBits : Obligations.RegisterFieldsAtTheirBits := by
  intro r
  refine ⟨rfl, ?_, ⟨?_, extractLsb'_lowField_above (BitVec.ofBool r.hasDeadline) le_rfl⟩, r.lenInfo.toWord_fields,
    r.hdr.toWord_fields⟩
  · exact r.status.toWord_fields
  · exact (by simp : ((BitVec.ofBool r.hasDeadline).setWidth 32).getLsbD 0 = r.hasDeadline)

end Sys2Proof.Machine
end

section
/-! The Host's register accesses: each of its two turns as an equation of `step`, and from them O5, O7 and O8. -/

namespace Sys2Proof.Machine

/-! ### One access -/

/-- A register read is in form when it is 32 bits wide and aligned (20_memory.md R64). -/
@[simp] theorem HostAccess.wf_regRead (off : BitVec 8) (size : Nat) :
    (HostAccess.regRead off size).wf = true ↔ size = 4 ∧ off.toNat % 4 = 0 := by
  simp only [HostAccess.wf, Bool.and_eq_true, beq_iff_eq]

/-- So is a register write. -/
@[simp] theorem HostAccess.wf_regWrite (off : BitVec 8) (size : Nat) (w : Word) :
    (HostAccess.regWrite off size w).wf = true ↔ size = 4 ∧ off.toNat % 4 = 0 := by
  simp only [HostAccess.wf, Bool.and_eq_true, beq_iff_eq]

/-- While a command runs a register write is ignored (10_state.md R23). -/
theorem regWrite_of_busy {s : State} (off : BitVec 8) (w : Word) (hb : s.regs.status.busy = true) :
    regWrite off w s = .next s := by
  simp [regWrite, hb]

/-- While none runs a write at any offset but CMD's goes into the register file and nowhere else. -/
theorem regWrite_of_idle {s : State} {off : BitVec 8} (w : Word) (hb : s.regs.status.busy = false) (hoff : off ≠ 0) :
    regWrite off w s = .next { s with regs := s.regs.writeAt off w } := by
  simp only [regWrite, hb, Bool.false_eq_true, if_false]
  split
  case h_1 hx => exact absurd (Reg.ofOffset_eq_some.1 hx) hoff
  case h_2 x _ hx => rw [Reg.ofOffset_eq_some.1 hx, Regs.writeAt_offset]
  case h_3 hx => rw [Regs.writeAt_of_none _ w hx]

/-- What a host access that has a meaning is: an aligned 32-bit register read or write, or a BUF access while no command
runs (20_memory.md R64, R71). -/
theorem hostStep_cases {a : HostAccess} {s t : State} (h : hostStep a s = .next t) :
    (∃ off, a = .regRead off 4 ∧ off.toNat % 4 = 0 ∧ t = emit (.regRead off (s.regs.readAt off)) s) ∨
    (∃ off w, a = .regWrite off 4 w ∧ off.toNat % 4 = 0 ∧ regWrite off w s = .next t) ∨
    (s.regs.status.busy = false ∧ ∃ x, a = .bufRead x ∧ bufRead x s = .next t) ∨
    (s.regs.status.busy = false ∧ ∃ x b, a = .bufWrite x b ∧ bufWrite x b s = .next t) := by
  unfold hostStep at h
  cases a with
  | regRead off size =>
    dsimp only at h
    split_ifs at h with hwf
    obtain ⟨rfl, ha⟩ := (HostAccess.wf_regRead off size).1 hwf
    cases h
    exact .inl ⟨off, rfl, ha, rfl⟩
  | regWrite off size w =>
    dsimp only at h
    split_ifs at h with hwf
    obtain ⟨rfl, ha⟩ := (HostAccess.wf_regWrite off size w).1 hwf
    exact .inr (.inl ⟨off, w, rfl, ha, h⟩)
  | bufRead x =>
    dsimp only at h
    split_ifs at h with _ hb
    exact .inr (.inr (.inl ⟨by simpa using hb, x, rfl, h⟩))
  | bufWrite x b =>
    dsimp only at h
    split_ifs at h with _ hb
    exact .inr (.inr (.inr ⟨by simpa using hb, x, b, rfl, h⟩))

/-! ### One turn -/

/-- The Host's turn to read a register, at any time (20_memory.md R70). -/
theorem step_regRead {s : State} {off : BitVec 8} {rest : List Turn} (ha : off.toNat % 4 = 0)
    (ht : s.turns = .host (.regRead off 4) :: rest) :
    step s = .next { s with turns := rest, log := s.log ++ [.regRead off (s.regs.readAt off)] } := by
  simp [step_turn ht, turnStep, hostStep, ha, emit]

/-- The Host's turn to write a register. -/
theorem step_regWrite {s : State} {off : BitVec 8} {w : Word} {rest : List Turn} (ha : off.toNat % 4 = 0)
    (ht : s.turns = .host (.regWrite off 4 w) :: rest) :
    step s = regWrite off w { s with turns := rest } := by
  simp [step_turn ht, turnStep, hostStep, ha]

/-- Settles O5: `regWrite` tests BUSY before anything else, and a read does not look at it. -/
theorem writesWhileBusyAreIgnored : Obligations.WritesWhileBusyAreIgnored := by
  intro s off w rest hb ha
  refine ⟨fun ht => ?_, step_regRead ha⟩
  rw [step_regWrite ha ht]
  exact regWrite_of_busy off w hb

/-- Settles O7: the read's turn, and what the register file holds at each offset. -/
theorem registerReadHasNoSideEffect : Obligations.RegisterReadHasNoSideEffect := by
  intro s off rest ha ht
  refine ⟨step_regRead ha ht, ?_, ?_, ?_, ?_, ?_, ?_, ?_, ?_, ?_, ?_, ?_, ?_⟩
  · rintro (rfl | hunused)
    · rfl
    · exact Regs.readAt_of_none _ (Reg.ofOffset_unused hunused)
  case refine_6 =>
    rintro rfl
    show (BitVec.ofBool s.regs.hasDeadline).setWidth 32 = _
    cases s.regs.hasDeadline <;> rfl
  all_goals rintro rfl; rfl

/-- Settles O8: two turns, the write's and the read's; the register file's own read-after-write laws say the rest. -/
theorem registerWriteThenRead : Obligations.RegisterWriteThenRead := by
  intro s off w rest ht ha hoff hb
  have hwrite := (step_regWrite ha ht).trans (regWrite_of_idle w hb hoff)
  refine ⟨_, State.runsTo_succ.2 ⟨_, hwrite, State.runsTo_succ.2 ⟨_, step_regRead ha rfl, State.runsTo_zero _⟩⟩, rfl, ?_,
    fun o ho => Regs.readAt_writeAt_of_ne s.regs w ho, Regs.writeAt_status .., rfl, fun _ => rfl, rfl, rfl⟩
  exact congrArg (fun v => s.log ++ [PortEvent.regRead off v]) (Regs.readAt_writeAt_self s.regs off w)

end Sys2Proof.Machine
end

section
/-! Who writes STATUS (O54): the Engine only when it ends a running command, the Host only by a CMD write while none runs,
the Transport and the DeadlineSource never. -/

namespace Sys2Proof.Machine

/-- From s to t the running command ended: IDLE, and STATUS as `finish` leaves it (60_exceptions.md R205). -/
def EndsCommand (s t : State) : Prop :=
  s.eng.phase ≠ .idle ∧ t.eng.phase = .idle ∧ ∃ c, t.regs.status = Status.finished c

/-! ### The Engine -/

/-- Sending a request leaves STATUS, or the rule is complete and the command ends. -/
theorem sendRequest_status {s t : State} {timeout : Word} (hp : s.eng.phase ≠ .idle)
    (h : sendRequest timeout s = .next t) : t.regs.status = s.regs.status ∨ EndsCommand s t := by
  obtain ⟨d, n, data, -, rfl⟩ | ⟨-, rfl⟩ := sendRequest_cases h
  · exact .inl rfl
  · exact .inr ⟨hp, rfl, _, rfl⟩

/-- Beginning a call leaves STATUS, or the rule is complete and the command ends. -/
theorem beginCall_status {s t : State} (hp : s.eng.phase ≠ .idle) (h : beginCall s = .next t) :
    t.regs.status = s.regs.status ∨ EndsCommand s t := by
  obtain ⟨-, -, rfl⟩ | ⟨-, hsend⟩ | ⟨-, rfl⟩ := beginCall_cases h
  · exact .inl rfl
  · exact sendRequest_status hp hsend
  · exact .inr ⟨hp, rfl, _, rfl⟩

/-- Of the writes of a command's rule `finish` changes STATUS, and a `send` that finds the rule complete. -/
theorem perform_status {op : Micro} {s t : State} (hp : s.eng.phase ≠ .idle) (h : perform op s = .next t) :
    t.regs.status = s.regs.status ∨ EndsCommand s t := by
  cases op with
  | finish c => cases h; exact .inr ⟨hp, rfl, c, rfl⟩
  | send timeout => exact sendRequest_status hp h
  | memWrite a b =>
    simp only [perform] at h
    split_ifs at h
    cases h
    exact .inl rfl
  | _ => cases h; exact .inl rfl

/-- An Engine step leaves STATUS or ends the running command. -/
theorem engineStep_status {s t : State} (h : engineStep s = .next t) :
    t.regs.status = s.regs.status ∨ EndsCommand s t := by
  obtain rfl | ⟨hp, -, ⟨op, rest, -, hperf⟩ | ⟨-, hcall⟩⟩ := engineStep_cases h
  · exact .inl rfl
  · exact perform_status (s := dropTodo s) hp hperf
  · exact beginCall_status hp hcall

/-! ### The agents' answers -/

/-- Taking or discarding a Transport answer writes no register. -/
theorem transportStep_regs {s t : State} (h : transportStep s = .next t) : t.regs = s.regs := by
  unfold transportStep at h
  split at h
  case h_1 => cases h; rfl
  case h_2 =>
    dsimp only at h
    split_ifs at h <;> cases h <;> rfl

/-- Taking or discarding a DeadlineSource answer writes no register. -/
theorem deadlineStep_regs {s t : State} (h : deadlineStep s = .next t) : t.regs = s.regs := by
  unfold deadlineStep at h
  split at h
  case h_1 => cases h; rfl
  case h_2 =>
    dsimp only at h
    split_ifs at h <;> cases h <;> rfl

/-! ### The Host -/

/-- A host register write leaves STATUS unless it is a CMD write with no command running. -/
theorem regWrite_status {off : BitVec 8} {w : Word} {s t : State} (h : regWrite off w s = .next t) :
    t.regs.status = s.regs.status ∨ (off = 0 ∧ s.regs.status.busy = false) := by
  cases hb : s.regs.status.busy with
  | true =>
    rw [regWrite_of_busy off w hb] at h
    cases h
    exact .inl rfl
  | false =>
    by_cases hoff : off = 0
    · exact .inr ⟨hoff, rfl⟩
    · rw [regWrite_of_idle w hb hoff] at h
      cases h
      exact .inl (Regs.writeAt_status ..)

/-- A host BUF read writes no register. -/
theorem bufRead_regs {a : Nat} {s t : State} (h : bufRead a s = .next t) : t.regs = s.regs := by
  unfold bufRead at h
  split_ifs at h
  · split at h
    case h_1 => cases h; rfl
    case h_2 => cases h
  · cases h; rfl

/-- A host BUF write writes no register. -/
theorem bufWrite_regs {a : Nat} {b : Byte} {s t : State} (h : bufWrite a b s = .next t) : t.regs = s.regs := by
  unfold bufWrite at h
  split_ifs at h <;> cases h <;> rfl

/-- A host access leaves STATUS unless it is a CMD write with no command running. -/
theorem hostStep_status {a : HostAccess} {s t : State} (h : hostStep a s = .next t) :
    t.regs.status = s.regs.status ∨ ((∃ w, a = cmdAccess w) ∧ s.regs.status.busy = false) := by
  obtain ⟨off, -, -, rfl⟩ | ⟨off, w, rfl, -, hw⟩ | ⟨-, x, -, hr⟩ | ⟨-, x, b, -, hw⟩ := hostStep_cases h
  · exact .inl rfl
  · obtain hsame | ⟨rfl, hb⟩ := regWrite_status hw
    · exact .inl hsame
    · exact .inr ⟨⟨w, rfl⟩, hb⟩
  · exact .inl (congrArg Regs.status (bufRead_regs hr))
  · exact .inl (congrArg Regs.status (bufWrite_regs hw))

/-! ### One step -/

/-- A turn leaves STATUS, ends the running command, is a CMD write with no command running, or is reset. -/
theorem turnStep_status {a : Turn} {s t : State} (h : turnStep a s = .next t) :
    t.regs.status = s.regs.status ∨ EndsCommand s t ∨
      ((∃ w, a = .host (cmdAccess w)) ∧ s.regs.status.busy = false) ∨ a = .reset := by
  cases a with
  | host a =>
    obtain hsame | ⟨⟨w, rfl⟩, hb⟩ := hostStep_status h
    · exact .inl hsame
    · exact .inr (.inr (.inl ⟨⟨w, rfl⟩, hb⟩))
  | engine => exact (engineStep_status h).imp_right .inl
  | transport => exact .inl (congrArg Regs.status (transportStep_regs h))
  | deadlineSource => exact .inl (congrArg Regs.status (deadlineStep_regs h))
  | reset => exact .inr (.inr (.inr rfl))

/-- With no turn given, STATUS changes only at the end of the running command. -/
theorem defaultStep_status {s t : State} (h : defaultStep s = .next t) :
    t.regs.status = s.regs.status ∨ EndsCommand s t := by
  unfold defaultStep at h
  split at h
  case h_1 => exact engineStep_status h
  case h_2 => exact .inl (congrArg Regs.status (deadlineStep_regs h))
  case h_3 => exact .inl (congrArg Regs.status (transportStep_regs h))

/-- Outside IDLE a command runs (10_state.md R39). -/
theorem busy_of_phase {s : State} (h : s.Inv) (hp : s.eng.phase ≠ .idle) : s.regs.status.busy = true := by
  by_contra hb
  exact hp (idle_of_not_busy h (by simpa using hb)).1

/-- The end of a command, as O54 states it: a command ran, by the invariant. -/
theorem EndsCommand.status {s t : State} (h : s.Inv) (hend : EndsCommand s t) :
    s.regs.status.busy = true ∧ t.eng.phase = .idle ∧
      ∃ c : ErrCode, t.regs.status = ⟨false, true, c != ErrCode.none, c⟩ :=
  ⟨busy_of_phase h hend.1, hend.2.1, hend.2.2⟩

/-- Settles O54: of the agents' turns only a CMD write, the Engine's `finish` and reset reach STATUS. -/
theorem statusHasThreeWriters : Obligations.StatusHasThreeWriters := by
  intro s t h hstep hne
  cases hturns : s.turns with
  | nil =>
    obtain hsame | hend := defaultStep_status (step_default hturns ▸ hstep)
    · exact absurd hsame hne
    · exact .inr (.inl (hend.status h))
  | cons a rest =>
    obtain hsame | hend | ⟨⟨w, rfl⟩, hb⟩ | rfl :=
      turnStep_status (s := { s with turns := rest }) (step_turn hturns ▸ hstep)
    · exact absurd hsame hne
    · exact .inr (.inl (EndsCommand.status (h.withTurns rest) hend))
    · exact .inl ⟨w, rest, rfl, hb⟩
    · exact .inr (.inr ⟨rest, rfl⟩)

end Sys2Proof.Machine
end

section
/-! What the issue of a command does with the framing fields (O27). -/

namespace Sys2Proof.Machine

/-- Every framing field is 0 (10_state.md R41). -/
def Engine.FramingCleared (e : Engine) : Prop := e.acc = 0 ∧ e.i = 0 ∧ e.v = 0 ∧ e.off = 0 ∧ e.got = 0

/-- No command looks at a framing field before it has cleared them all: clearing them first makes no difference. -/
theorem exec_issue (i : Instr) (s : State) : exec i (issue i.opcode s) = exec i s := by cases i <;> rfl

/-- Every command is issued, with the framing fields cleared. -/
theorem exec_framingCleared (i : Instr) (s : State) : ∃ t, exec i s = .next t ∧ t.eng.FramingCleared := by
  cases i with
  | lenEncode =>
    simp only [exec, execLenEncode]
    split_ifs <;> exact ⟨_, rfl, rfl, rfl, rfl, rfl, rfl⟩
  | _ => exact ⟨_, rfl, rfl, rfl, rfl, rfl, rfl⟩

/-- Settles O27: `issue` forgets the framing fields, and every command begins with it. -/
theorem noFramingStateCrossesCommands : Obligations.NoFramingStateCrossesCommands := by
  refine ⟨exec_framingCleared, fun i s a j x o g => ?_⟩
  calc exec i { s with eng := { s.eng with acc := a, i := j, v := x, off := o, got := g } }
    _ = exec i (issue i.opcode { s with eng := { s.eng with acc := a, i := j, v := x, off := o, got := g } }) :=
      (exec_issue i _).symm
    _ = exec i (issue i.opcode s) := rfl
    _ = exec i s := exec_issue i s

end Sys2Proof.Machine
end

section
/-! The Host's BUF accesses and the forms of access that are refused, each turn as an equation of `step` (O9 to O13), and
where the accesses stand in the Host's address space (O55). -/

namespace Sys2Proof.Machine

/-! ### One access -/

/-- A host access that is not in form is refused (20_memory.md R64). -/
theorem hostStep_of_not_wf {a : HostAccess} (s : State) (h : a.wf = false) :
    hostStep a s = .refused .registerAccessNotAligned32 := by
  simp [hostStep, h]

/-- A BUF address is inside BUF when it is below BUF_SIZE (R60). -/
@[simp] theorem State.inBuf_iff {s : State} {a : Nat} : s.inBuf a = true ↔ a < s.cfg.bufSize.toNat := by
  simp [State.inBuf]

/-- A byte that has been written is handed out (R61). -/
theorem bufRead_of_written {s : State} {a : Nat} {b : Byte} (ha : a < s.cfg.bufSize.toNat) (hb : s.buf.read a = some b) :
    bufRead a s = .next (emit (.bufRead a b) s) := by
  simp [bufRead, ha, hb]

/-- A byte that nothing has written faults (R62). -/
theorem bufRead_of_unwritten {s : State} {a : Nat} (ha : a < s.cfg.bufSize.toNat) (hb : s.buf.read a = none) :
    bufRead a s = .fault .bufByteNeverWritten := by
  simp [bufRead, ha, hb]

/-- At and above BUF_SIZE a read answers 0 (R65). -/
theorem bufRead_of_outside {s : State} {a : Nat} (ha : s.cfg.bufSize.toNat ≤ a) :
    bufRead a s = .next (emit (.bufRead a 0) s) := by
  simp [bufRead, ha]

/-- Below BUF_SIZE a write stores its byte (R61). -/
theorem bufWrite_of_inside {s : State} {a : Nat} (b : Byte) (ha : a < s.cfg.bufSize.toNat) :
    bufWrite a b s = .next { s with buf := s.buf.write a b } := by
  simp [bufWrite, ha]

/-- At and above BUF_SIZE a write is ignored (R65). -/
theorem bufWrite_of_outside {s : State} {a : Nat} (b : Byte) (ha : s.cfg.bufSize.toNat ≤ a) :
    bufWrite a b s = .next s := by
  simp [bufWrite, ha]

/-! ### One turn -/

/-- The Host's turn with an access that is not in form. -/
theorem step_of_not_wf {s : State} {a : HostAccess} {rest : List Turn} (h : a.wf = false)
    (ht : s.turns = .host a :: rest) : step s = .refused .registerAccessNotAligned32 := by
  rw [step_turn ht]; exact hostStep_of_not_wf _ h

/-- The Host's turn to read a BUF byte: while a command runs a race (R71). -/
theorem step_bufRead {s : State} {a : Nat} {rest : List Turn} (ht : s.turns = .host (.bufRead a) :: rest) :
    step s = if s.regs.status.busy then .refused .bufAccessWhileBusy else bufRead a { s with turns := rest } := by
  rw [step_turn ht]; rfl

/-- The Host's turn to write a BUF byte. -/
theorem step_bufWrite {s : State} {a : Nat} {b : Byte} {rest : List Turn}
    (ht : s.turns = .host (.bufWrite a b) :: rest) :
    step s = if s.regs.status.busy then .refused .bufAccessWhileBusy else bufWrite a b { s with turns := rest } := by
  rw [step_turn ht]; rfl

/-- The Host's turn to read a BUF byte while no command runs. -/
theorem step_bufRead_of_idle {s : State} {a : Nat} {rest : List Turn} (hb : s.regs.status.busy = false)
    (ht : s.turns = .host (.bufRead a) :: rest) : step s = bufRead a { s with turns := rest } := by
  simp [step_bufRead ht, hb]

/-- The Host's turn to write a BUF byte while no command runs. -/
theorem step_bufWrite_of_idle {s : State} {a : Nat} {b : Byte} {rest : List Turn} (hb : s.regs.status.busy = false)
    (ht : s.turns = .host (.bufWrite a b) :: rest) : step s = bufWrite a b { s with turns := rest } := by
  simp [step_bufWrite ht, hb]

/-- The Engine's step when it waits for nothing and nothing is due: the next call begins. -/
theorem engineStep_of_nothing_due {s : State} (hp : s.eng.phase ≠ .idle) (hw : s.eng.wait = .none)
    (hd : s.todo = []) : engineStep s = beginCall s := by
  cases hphase : s.eng.phase <;> simp_all [engineStep]

/-- SEND_PACKET has no data to collect exactly when some byte of it has no value (42_packet_framer.md R185). -/
theorem plan_eq_unwritten_iff {s : State} :
    plan s = .unwritten ↔ s.eng.phase = .sp ∧ ∃ a < s.eng.lenL.toNat, s.buf.read a = none := by
  have hrange := Memory.readRange_none (m := s.buf) (a := 0) (n := s.eng.lenL.toNat)
  simp only [Nat.zero_add] at hrange
  rw [← hrange]
  unfold plan
  cases s.eng.phase with
  | rpPay => dsimp only; split_ifs <;> simp
  | sp => cases hr : s.buf.readRange 0 s.eng.lenL.toNat <;> simp
  | _ => simp

/-! ### The statements -/

/-- Settles O9: `hostStep` looks at the form of an access before anything else. -/
theorem otherRegisterAccessesAreRefused : Obligations.OtherRegisterAccessesAreRefused := by
  intro s off size w rest h
  have hform : ¬ (size = 4 ∧ off.toNat % 4 = 0) := by tauto
  have hread : (HostAccess.regRead off size).wf = false := by
    simpa only [Bool.not_eq_true] using mt (HostAccess.wf_regRead off size).1 hform
  have hwrite : (HostAccess.regWrite off size w).wf = false := by
    simpa only [Bool.not_eq_true] using mt (HostAccess.wf_regWrite off size w).1 hform
  exact ⟨step_of_not_wf hread, step_of_not_wf hwrite⟩

/-- Settles O10: the write's turn and the read's, and the law of a read after a write. -/
theorem hostBufWriteThenRead : Obligations.HostBufWriteThenRead := by
  intro s a b rest ht hb ha
  have hwrite := (step_bufWrite_of_idle hb ht).trans (bufWrite_of_inside b ha)
  have hself : (s.buf.write a b).read a = some b := by simp
  have hread := (step_bufRead_of_idle (s := { s with turns := .host (.bufRead a) :: rest, buf := s.buf.write a b }) hb
    rfl).trans (bufRead_of_written ha hself)
  exact ⟨_, State.runsTo_succ.2 ⟨_, hwrite, State.runsTo_succ.2 ⟨_, hread, State.runsTo_zero _⟩⟩, rfl, rfl, hself,
    fun x hx => by simp [hx], rfl, rfl, rfl⟩

/-- Settles O11: the accesses of a BUF address that has no storage. -/
theorem bufAddressesBeyondStorage : Obligations.BufAddressesBeyondStorage := by
  intro s a b rest hb ha
  exact ⟨fun ht => (step_bufRead_of_idle hb ht).trans (bufRead_of_outside ha),
    fun ht => (step_bufWrite_of_idle hb ht).trans (bufWrite_of_outside b ha)⟩

/-- Settles O12: power-on, reset, the Host's read, and the step in which SEND_PACKET begins its call. -/
theorem unwrittenBufByteFaults : Obligations.UnwrittenBufByteFaults := by
  refine ⟨fun a => rfl, fun s rest ht => ⟨_, step_turn ht, fun a => rfl⟩, ?_, ?_⟩
  · intro s a rest hb ha hnone ht
    exact (step_bufRead_of_idle hb ht).trans (bufRead_of_unwritten ha hnone)
  · intro s a _ hturns hp hw hd ha hnone
    have hplan : plan s = .unwritten := plan_eq_unwritten_iff.2 ⟨hp, a, ha, hnone⟩
    calc step s = engineStep s := by rw [step_default hturns, defaultStep, hw]
      _ = beginCall s := engineStep_of_nothing_due (by simp [hp]) hw hd
      _ = .fault .bufByteNeverWritten := by rw [beginCall, hplan]

/-- Settles O13: BUSY is tested before the address is looked at. -/
theorem bufAccessWhileBusyIsRefused : Obligations.BufAccessWhileBusyIsRefused := by
  intro s a b rest hb
  exact ⟨fun ht => by simp [step_bufRead ht, hb], fun ht => by simp [step_bufWrite ht, hb]⟩

/-! ### The Host's address space -/

/-- An address is a register offset's exactly when it stands that far above REG_BASE (20_memory.md R77). -/
theorem regOffset_eq_some {c : Config} {addr : Nat} {off : BitVec 8} :
    regOffset c addr = some off ↔ addr = c.regBase + off.toNat := by
  have hoff := off.isLt
  unfold regOffset
  split_ifs with hin
  · rw [Option.some.injEq, ← BitVec.toNat_inj, BitVec.toNat_ofNat, Nat.mod_eq_of_lt (by omega)]
    omega
  · simp only [false_iff]
    omega

/-- An address is a BUF byte's exactly when it stands that far above BUF_BASE and BUF has the byte (R60, R77). -/
theorem bufIndex_eq_some {c : Config} {addr a : Nat} :
    bufIndex c addr = some a ↔ addr = c.bufBase + a ∧ a < c.bufSize.toNat := by
  unfold bufIndex
  split_ifs with hin
  · rw [Option.some.injEq]
    omega
  · simp only [false_iff]
    omega

/-- Settles O55: the two windows read backwards are the two bases read forwards. -/
theorem hostAddressesFromTheBases : Obligations.HostAddressesFromTheBases := fun _ =>
  ⟨fun _ _ => regOffset_eq_some, fun _ _ => bufIndex_eq_some,
    fun _ _ _ => ⟨regOffset_eq_some.2 rfl, regOffset_eq_some.2 rfl⟩,
    fun _ _ ha => ⟨bufIndex_eq_some.2 ⟨rfl, ha⟩, bufIndex_eq_some.2 ⟨rfl, ha⟩⟩⟩

end Sys2Proof.Machine
end

section
/-! How a step can stop: one lemma per operation that says when it faults or is refused and that it has a next state
otherwise; from them O46 and O47. -/

namespace Sys2Proof.Machine

/-- Why an Engine step faults: the next write due is outside BUF, or the call it makes has data nothing has written. -/
def Fault.EngineCause (s : State) : Fault → Prop
  | .bufAddressOutside => ∃ a b rest, s.todo = .memWrite a b :: rest ∧ s.cfg.bufSize.toNat ≤ a
  | .bufByteNeverWritten => plan s = .unwritten ∧ (s.todo = [] ∨ ∃ timeout rest, s.todo = .send timeout :: rest)

/-- Why a host access is refused: it is not in form, or it is a BUF access while a command runs. -/
def Refusal.HostCause (s : State) (a : HostAccess) : Refusal → Prop
  | .registerAccessNotAligned32 => a.wf = false
  | .bufAccessWhileBusy => s.regs.status.busy = true ∧ ((∃ x, a = .bufRead x) ∨ ∃ x b, a = .bufWrite x b)
  | .notModelled _ | .answerOutsidePortEncoding => False

/-! ### The Engine -/

/-- `sendRequest` stops only for want of data. -/
theorem sendRequest_outcome (timeout : Word) (s : State) :
    (∃ t, sendRequest timeout s = .next t) ∨
      (plan s = .unwritten ∧ sendRequest timeout s = .fault .bufByteNeverWritten) := by
  unfold sendRequest
  cases plan s with
  | call d n data => exact .inl ⟨_, rfl⟩
  | complete => exact .inl ⟨_, rfl⟩
  | unwritten => exact .inr ⟨rfl, rfl⟩

/-- `beginCall` stops only for want of data. -/
theorem beginCall_outcome (s : State) :
    (∃ t, beginCall s = .next t) ∨ (plan s = .unwritten ∧ beginCall s = .fault .bufByteNeverWritten) := by
  unfold beginCall
  cases hplan : plan s with
  | call d n data =>
    dsimp only
    split_ifs
    · exact .inl ⟨_, rfl⟩
    · exact (sendRequest_outcome unbounded s).imp_right fun ⟨hnone, _⟩ => absurd (hplan.symm.trans hnone) nofun
  | complete => exact .inl ⟨_, rfl⟩
  | unwritten => exact .inr ⟨rfl, rfl⟩

/-- An Engine step is never refused, and faults for one of two causes. -/
theorem engineStep_outcome (s : State) :
    (∃ t, engineStep s = .next t) ∨ ∃ f, engineStep s = .fault f ∧ f.EngineCause s := by
  unfold engineStep
  split
  case h_1 | h_2 | h_3 => exact .inl ⟨_, rfl⟩
  case h_4 =>
    cases hd : s.todo with
    | nil =>
      exact (beginCall_outcome s).imp_right fun ⟨hplan, hfault⟩ => ⟨_, hfault, hplan, .inl hd⟩
    | cons op rest =>
      cases op with
      | memWrite a b =>
        by_cases ha : a < s.cfg.bufSize.toNat
        · exact .inl ⟨_, by simp [perform, ha]; rfl⟩
        · exact .inr ⟨.bufAddressOutside, by simp [perform, ha], a, b, rest, hd, not_lt.1 ha⟩
      | send timeout =>
        exact (sendRequest_outcome timeout (dropTodo s)).imp_right fun ⟨hplan, hfault⟩ =>
          ⟨_, hfault, hplan, .inr ⟨timeout, rest, hd⟩⟩
      | _ => exact .inl ⟨_, rfl⟩

/-- Under the invariant a write that is due is legal (20_memory.md R61). -/
theorem State.Inv.legal_of_mem {s : State} (h : s.Inv) {op : Micro} (hop : op ∈ s.todo) : op.legal s = true := by
  obtain ⟨-, -, -, -, -, -, -, -, -, -, -, -, -, hlegal, -⟩ := h
  exact hlegal op hop

/-- A request is sent once nothing else is due, so the framing fields are then right as they stand. -/
theorem State.Inv.framed_at_call {s : State} (h : s.Inv)
    (hd : s.todo = [] ∨ ∃ timeout rest, s.todo = .send timeout :: rest) : Framed s.cfg s.regs s.eng := by
  obtain ⟨-, -, -, -, -, -, -, -, -, -, -, -, hsend, -, hframed⟩ := h
  obtain hd | ⟨timeout, rest, hd⟩ := hd
  · rwa [hd] at hframed
  · have hlen := hsend (by rw [hd]; rfl)
    obtain rfl : rest = [] := by simpa [hd] using hlen
    rwa [hd] at hframed

/-- Under the invariant an Engine step faults only when SEND_PACKET collects a byte of BUF that nothing has written: a
write that is due is inside BUF, and so is the data of the call. -/
theorem Fault.EngineCause.unwritten {s : State} {f : Fault} (h : s.Inv) (hf : f.EngineCause s) :
    f = .bufByteNeverWritten ∧ s.eng.phase = .sp ∧
      ∃ a < s.eng.lenL.toNat, a < s.cfg.bufSize.toNat ∧ s.buf.read a = none := by
  cases f with
  | bufAddressOutside =>
    obtain ⟨a, b, rest, hd, ha⟩ := hf
    have hlegal := h.legal_of_mem (hd ▸ List.mem_cons_self)
    simp only [Micro.legal, Bool.and_eq_true, State.inBuf_iff] at hlegal
    exact absurd hlegal.2 (not_lt.2 ha)
  | bufByteNeverWritten =>
    obtain ⟨hplan, hd⟩ := hf
    obtain ⟨hp, a, ha, hnone⟩ := plan_eq_unwritten_iff.1 hplan
    obtain ⟨-, -, -, -, -, hlen⟩ := h.framed_at_call hd
    exact ⟨rfl, hp, a, ha, ha.trans_le (hlen hp), hnone⟩

/-! ### The agents' answers -/

/-- The one answer outside the port encoding: OK to a read with data that is not the N bytes it announces (R91). -/
theorem Answer.wf_eq_false {d : Dir} {a : Answer} :
    a.wf d = false ↔ d = .read ∧ a.st = .ok ∧ a.rdata.length ≠ a.n.toNat := by
  unfold Answer.wf
  cases d <;> cases a.st <;> simp

/-- A Transport step is refused for an answer outside the port encoding while one is awaited, and has a next state
otherwise. -/
theorem transportStep_outcome (s : State) :
    (∃ t, transportStep s = .next t) ∨
    (s.eng.wait = .xport ∧ (∃ ans more, s.xportAnswers = ans :: more ∧ ans.wf s.eng.req.dir = false) ∧
      transportStep s = .refused .answerOutsidePortEncoding) := by
  unfold transportStep
  cases hans : s.xportAnswers with
  | nil => exact .inl ⟨_, rfl⟩
  | cons ans more =>
    dsimp only
    split_ifs with hw hwf
    · exact .inl ⟨_, rfl⟩
    · exact .inr ⟨hw, ⟨ans, more, rfl, by simpa using hwf⟩, rfl⟩
    · exact .inl ⟨_, rfl⟩

/-- A DeadlineSource step has a next state, whatever the answer. -/
theorem deadlineStep_next (s : State) : ∃ t, deadlineStep s = .next t := by
  unfold deadlineStep
  cases s.deadlineAnswers with
  | nil => exact ⟨_, rfl⟩
  | cons ms more =>
    dsimp only
    split_ifs <;> exact ⟨_, rfl⟩

/-! ### The Host -/

/-- A host register write has a next state: every command has one at its issue. -/
theorem regWrite_next (off : BitVec 8) (w : Word) (s : State) : ∃ t, regWrite off w s = .next t := by
  cases hb : s.regs.status.busy with
  | true => exact ⟨_, regWrite_of_busy off w hb⟩
  | false =>
    by_cases hoff : off = 0
    · subst hoff
      have hcmd : regWrite 0 w s = cmdWrite w s := by simp [regWrite, hb, Reg.ofOffset]
      rw [hcmd, cmdWrite]
      cases decode w with
      | ok i =>
        obtain ⟨t, ht, -⟩ := exec_framingCleared i s
        exact ⟨t, ht⟩
      | error _ => exact ⟨_, rfl⟩
    · exact ⟨_, regWrite_of_idle w hb hoff⟩

/-- A host BUF read faults for a byte nothing has written, and has a next state otherwise. -/
theorem bufRead_outcome (a : Nat) (s : State) :
    (∃ t, bufRead a s = .next t) ∨
    (a < s.cfg.bufSize.toNat ∧ s.buf.read a = none ∧ bufRead a s = .fault .bufByteNeverWritten) := by
  obtain ha | ha := lt_or_ge a s.cfg.bufSize.toNat
  · cases hb : s.buf.read a with
    | some b => exact .inl ⟨_, bufRead_of_written ha hb⟩
    | none => exact .inr ⟨ha, rfl, bufRead_of_unwritten ha hb⟩
  · exact .inl ⟨_, bufRead_of_outside ha⟩

/-- A host BUF write has a next state. -/
theorem bufWrite_next (a : Nat) (b : Byte) (s : State) : ∃ t, bufWrite a b s = .next t := by
  unfold bufWrite
  split_ifs <;> exact ⟨_, rfl⟩

/-- A host access is refused for one of two causes, faults for a byte nothing has written, and has a next state
otherwise. -/
theorem hostStep_outcome (a : HostAccess) (s : State) :
    (∃ t, hostStep a s = .next t) ∨ (∃ r, hostStep a s = .refused r ∧ r.HostCause s a) ∨
    (∃ x, a = .bufRead x ∧ x < s.cfg.bufSize.toNat ∧ s.buf.read x = none ∧
      hostStep a s = .fault .bufByteNeverWritten) := by
  cases hwf : a.wf with
  | false => exact .inr (.inl ⟨_, hostStep_of_not_wf s hwf, hwf⟩)
  | true =>
    unfold hostStep
    rw [if_pos hwf]
    cases a with
    | regRead off size => exact .inl ⟨_, rfl⟩
    | regWrite off size w => exact .inl (regWrite_next off w s)
    | bufRead x =>
      dsimp only
      split_ifs with hb
      · exact .inr (.inl ⟨_, rfl, hb, .inl ⟨x, rfl⟩⟩)
      · exact (bufRead_outcome x s).imp_right fun ⟨hx, hnone, hfault⟩ => .inr ⟨x, rfl, hx, hnone, hfault⟩
    | bufWrite x b =>
      dsimp only
      split_ifs with hb
      · exact .inr (.inl ⟨_, rfl, hb, .inr ⟨x, b, rfl⟩⟩)
      · exact .inl (bufWrite_next x b s)

/-! ### One step -/

/-- Every way a step can end: a next state, one of the Engine's faults, the Host's read of a byte nothing has written, a
refused host access, or an awaited answer outside the port encoding. -/
theorem step_outcome (s : State) :
    (∃ t, step s = .next t) ∨ (∃ f, step s = .fault f ∧ f.EngineCause s) ∨
    (∃ a rest, s.turns = .host (.bufRead a) :: rest ∧ a < s.cfg.bufSize.toNat ∧ s.buf.read a = none ∧
      step s = .fault .bufByteNeverWritten) ∨
    (∃ r a rest, s.turns = .host a :: rest ∧ step s = .refused r ∧ r.HostCause s a) ∨
    (s.eng.wait = .xport ∧ (∃ ans more, s.xportAnswers = ans :: more ∧ ans.wf s.eng.req.dir = false) ∧
      step s = .refused .answerOutsidePortEncoding) := by
  cases hturns : s.turns with
  | nil =>
    rw [step_default hturns, defaultStep]
    cases hw : s.eng.wait with
    | none => exact (engineStep_outcome s).imp_right .inl
    | timer => exact .inl (deadlineStep_next s)
    | xport =>
      exact (transportStep_outcome s).imp_right fun ⟨_, hans, hrefused⟩ =>
        .inr (.inr (.inr ⟨rfl, hans, hrefused⟩))
  | cons turn rest =>
    rw [step_turn hturns]
    cases turn with
    | host a =>
      obtain hnext | ⟨r, hr, hcause⟩ | ⟨x, rfl, hx, hnone, hfault⟩ := hostStep_outcome a { s with turns := rest }
      · exact .inl hnext
      · exact .inr (.inr (.inr (.inl ⟨r, a, rest, rfl, hr, hcause⟩)))
      · exact .inr (.inr (.inl ⟨x, rest, rfl, hx, hnone, hfault⟩))
    | engine => exact (engineStep_outcome { s with turns := rest }).imp_right .inl
    | transport =>
      exact (transportStep_outcome { s with turns := rest }).imp_right fun hrefused => .inr (.inr (.inr hrefused))
    | deadlineSource => exact .inl (deadlineStep_next _)
    | reset => exact .inl ⟨_, rfl⟩

/-- Settles O46: of the ways a step can end two are faults, and the invariant leaves the Engine only the unwritten byte of
SEND_PACKET's data. -/
theorem onlyUnwrittenReadsFault : Obligations.OnlyUnwrittenReadsFault := by
  intro s f h hstep
  obtain ⟨t, ht⟩ | ⟨g, hg, hcause⟩ | ⟨a, rest, hturns, ha, hnone, hfault⟩ | ⟨r, a, rest, -, hr, -⟩ | ⟨-, -, hr⟩ :=
    step_outcome s
  · exact absurd (hstep.symm.trans ht) nofun
  · obtain rfl : f = g := by simpa using hstep.symm.trans hg
    obtain ⟨hf, hsend⟩ := hcause.unwritten h
    exact ⟨hf, .inr hsend⟩
  · obtain rfl : f = .bufByteNeverWritten := by simpa using hstep.symm.trans hfault
    exact ⟨rfl, .inl ⟨a, rest, hturns, ha, hnone⟩⟩
  · exact absurd (hstep.symm.trans hr) nofun
  · exact absurd (hstep.symm.trans hr) nofun

/-- Settles O47: of the ways a step can end two are refusals, a host access's and an answer's. -/
theorem onlyInterfaceViolationsAreRefused : Obligations.OnlyInterfaceViolationsAreRefused := by
  intro s r hstep
  obtain ⟨t, ht⟩ | ⟨f, hf, -⟩ | ⟨a, rest, -, -, -, hf⟩ | ⟨q, a, rest, hturns, hq, hcause⟩ |
    ⟨hw, ⟨ans, more, hans, hwf⟩, hq⟩ := step_outcome s
  · exact absurd (hstep.symm.trans ht) nofun
  · exact absurd (hstep.symm.trans hf) nofun
  · exact absurd (hstep.symm.trans hf) nofun
  · obtain rfl : r = q := by simpa using hstep.symm.trans hq
    cases r with
    | registerAccessNotAligned32 => exact .inl ⟨rfl, a, rest, hturns, hcause⟩
    | bufAccessWhileBusy =>
      obtain ⟨hb, ⟨x, rfl⟩ | ⟨x, b, rfl⟩⟩ := hcause
      · exact .inr (.inl ⟨rfl, hb, x, 0, rest, .inl hturns⟩)
      · exact .inr (.inl ⟨rfl, hb, x, b, rest, .inr hturns⟩)
    | notModelled _ | answerOutsidePortEncoding => exact hcause.elim
  · obtain rfl : r = .answerOutsidePortEncoding := by simpa using hstep.symm.trans hq
    obtain ⟨hdir, hst, hlen⟩ := Answer.wf_eq_false.1 hwf
    exact .inr (.inr ⟨rfl, hw, hdir, ans, more, hans, hst, hlen⟩)

end Sys2Proof.Machine
end

section
/-! What a running command leaves alone: its operands (O52), and every BUF byte but the one that a write of its rule names
(O48). -/

namespace Sys2Proof.Machine

/-! ### What one write of a command's rule does to BUF -/

/-- What one write of a command's rule does to BUF, beside `onRegs` and `onEngine`. -/
def onBuf (op : Micro) (m : Memory) : Memory :=
  match op with
  | .memWrite a b => m.write a b
  | _ => m

/-- Performing a write sends the request of the call under way, or does to the registers, the Engine and BUF what the
three functions say. -/
theorem perform_cases {op : Micro} {s t : State} (h : perform op s = .next t) :
    (∃ timeout, op = .send timeout ∧ sendRequest timeout s = .next t) ∨
    ∃ todo, t = { s with regs := onRegs op s.regs, eng := onEngine op s.eng, buf := onBuf op s.buf, todo := todo } := by
  cases op with
  | send timeout => exact .inl ⟨timeout, rfl, h⟩
  | memWrite a b =>
    simp only [perform] at h
    split_ifs at h
    cases h
    exact .inr ⟨_, rfl⟩
  | _ => cases h; exact .inr ⟨_, rfl⟩

/-! ### Operands -/

/-- The operands a command latches at its issue, and its opcode (10_state.md R38). -/
def Engine.operands (e : Engine) : Nibble × Word × Word × Word × Bool := (e.op, e.capL, e.lenL, e.tokL, e.hasL)

/-- The registers they are latched from (30_encoding.md R84). -/
def Regs.operands (r : Regs) : Word × Word × Word × Bool := (r.cap, r.length, r.dlToken, r.hasDeadline)

/-- From s to t no operand changed. -/
def SameOperands (s t : State) : Prop := t.eng.operands = s.eng.operands ∧ t.regs.operands = s.regs.operands

/-- No write of a command's rule changes a latched operand. -/
@[simp] theorem onEngine_operands (op : Micro) (e : Engine) : (onEngine op e).operands = e.operands := by
  cases op <;> rfl

/-- No write of a command's rule changes an operand register. -/
@[simp] theorem onRegs_operands (op : Micro) (r : Regs) : (onRegs op r).operands = r.operands := by
  cases op <;> rfl

/-! ### The Engine -/

/-- Sending a request changes neither BUF nor an operand. -/
theorem sendRequest_keeps {s t : State} {timeout : Word} (h : sendRequest timeout s = .next t) :
    SameOperands s t ∧ t.buf = s.buf := by
  obtain ⟨d, n, data, -, rfl⟩ | ⟨-, rfl⟩ := sendRequest_cases h <;> exact ⟨⟨rfl, rfl⟩, rfl⟩

/-- Beginning a call changes neither BUF nor an operand. -/
theorem beginCall_keeps {s t : State} (h : beginCall s = .next t) : SameOperands s t ∧ t.buf = s.buf := by
  obtain ⟨-, -, rfl⟩ | ⟨-, hsend⟩ | ⟨-, rfl⟩ := beginCall_cases h
  · exact ⟨⟨rfl, rfl⟩, rfl⟩
  · exact sendRequest_keeps hsend
  · exact ⟨⟨rfl, rfl⟩, rfl⟩

/-- Performing a write changes no operand, and of BUF what the write does. -/
theorem perform_keeps {op : Micro} {s t : State} (h : perform op s = .next t) :
    SameOperands s t ∧ t.buf = onBuf op s.buf := by
  obtain ⟨timeout, rfl, hsend⟩ | ⟨todo, rfl⟩ := perform_cases h
  · exact sendRequest_keeps hsend
  · exact ⟨⟨onEngine_operands op s.eng, onRegs_operands op s.regs⟩, rfl⟩

/-- An Engine step changes no operand, and of BUF what the write that is due does, if there is one. -/
theorem engineStep_keeps {s t : State} (h : engineStep s = .next t) :
    SameOperands s t ∧ (t.buf = s.buf ∨ ∃ op ∈ s.todo, t.buf = onBuf op s.buf) := by
  obtain rfl | ⟨-, -, ⟨op, rest, hd, hperf⟩ | ⟨-, hcall⟩⟩ := engineStep_cases h
  · exact ⟨⟨rfl, rfl⟩, .inl rfl⟩
  · obtain ⟨hops, hbuf⟩ := perform_keeps hperf
    exact ⟨hops, .inr ⟨op, hd ▸ List.mem_cons_self, hbuf⟩⟩
  · exact (beginCall_keeps hcall).imp_right .inl

/-! ### The agents' answers -/

/-- Taking or discarding a Transport answer changes neither BUF nor an operand. -/
theorem transportStep_keeps {s t : State} (h : transportStep s = .next t) : SameOperands s t ∧ t.buf = s.buf := by
  unfold transportStep at h
  split at h
  case h_1 => cases h; exact ⟨⟨rfl, rfl⟩, rfl⟩
  case h_2 =>
    dsimp only at h
    split_ifs at h <;> cases h <;> exact ⟨⟨rfl, rfl⟩, rfl⟩

/-- Taking or discarding a DeadlineSource answer changes neither BUF nor an operand. -/
theorem deadlineStep_keeps {s t : State} (h : deadlineStep s = .next t) : SameOperands s t ∧ t.buf = s.buf := by
  unfold deadlineStep at h
  split at h
  case h_1 => cases h; exact ⟨⟨rfl, rfl⟩, rfl⟩
  case h_2 =>
    dsimp only at h
    split_ifs at h <;> cases h <;> exact ⟨⟨rfl, rfl⟩, rfl⟩

/-! ### The Host -/

/-- While a command runs no host access changes BUF or an operand: a register write is ignored and a BUF access is
refused. -/
theorem hostStep_keeps {a : HostAccess} {s t : State} (hb : s.regs.status.busy = true) (h : hostStep a s = .next t) :
    SameOperands s t ∧ t.buf = s.buf := by
  obtain ⟨off, -, -, rfl⟩ | ⟨off, w, -, -, hw⟩ | ⟨hidle, -⟩ | ⟨hidle, -⟩ := hostStep_cases h
  · exact ⟨⟨rfl, rfl⟩, rfl⟩
  · rw [regWrite_of_busy off w hb] at hw
    cases hw
    exact ⟨⟨rfl, rfl⟩, rfl⟩
  · exact absurd hb (by simp [hidle])
  · exact absurd hb (by simp [hidle])

/-! ### One step -/

/-- While a command runs a step is reset, or changes no operand and of BUF at most what a write that is due does. -/
theorem step_keeps {s t : State} (hb : s.regs.status.busy = true) (h : step s = .next t) :
    (∃ rest, s.turns = .reset :: rest ∧ t.buf = s.buf) ∨
    (SameOperands s t ∧ (t.buf = s.buf ∨ ∃ op ∈ s.todo, t.buf = onBuf op s.buf)) := by
  cases hturns : s.turns with
  | nil =>
    rw [step_default hturns, defaultStep] at h
    refine .inr ?_
    split at h
    case h_1 => exact engineStep_keeps h
    case h_2 => exact (deadlineStep_keeps h).imp_right .inl
    case h_3 => exact (transportStep_keeps h).imp_right .inl
  | cons turn rest =>
    rw [step_turn hturns] at h
    cases turn with
    | host a => exact .inr ((hostStep_keeps (s := { s with turns := rest }) hb h).imp_right .inl)
    | engine => exact .inr (engineStep_keeps (s := { s with turns := rest }) h)
    | transport => exact .inr ((transportStep_keeps (s := { s with turns := rest }) h).imp_right .inl)
    | deadlineSource => exact .inr ((deadlineStep_keeps (s := { s with turns := rest }) h).imp_right .inl)
    | reset => cases h; exact .inl ⟨rest, rfl, rfl⟩

/-- A legal write changes no BUF byte at or above the capacity (20_memory.md R61, 42_packet_framer.md R178). -/
theorem onBuf_read_of_capL_le {s : State} {op : Micro} {a : Nat} (hop : op.legal s = true) (ha : s.eng.capL.toNat ≤ a)
    (m : Memory) : (onBuf op m).read a = m.read a := by
  cases op with
  | memWrite x b =>
    simp only [Micro.legal, Bool.and_eq_true, decide_eq_true_eq] at hop
    have hne : a ≠ x := (hop.1.2.trans_le ha).ne'
    simp [onBuf, hne]
  | _ => rfl

/-- Settles O48: a step while READ_PACKET runs changes BUF only by a write that is due, and the invariant keeps that below
the capacity. -/
theorem capacityBoundsBufWrites : Obligations.CapacityBoundsBufWrites := by
  intro s t a h hread ha hstep
  have hb := busy_of_phase h (reading_ne hread)
  obtain ⟨-, -, hbuf⟩ | ⟨-, hbuf | ⟨op, hop, hbuf⟩⟩ := step_keeps hb hstep
  · rw [hbuf]
  · rw [hbuf]
  · rw [hbuf]
    exact onBuf_read_of_capL_le (h.legal_of_mem hop) ha s.buf

/-- Settles O52: while a command runs only reset changes an operand. -/
theorem latchedOperandsAreFixed : Obligations.LatchedOperandsAreFixed := by
  intro s t _ hb hreset hstep
  obtain ⟨rest, hturns, -⟩ | ⟨⟨heng, hregs⟩, -⟩ := step_keeps hb hstep
  · exact absurd hturns (hreset rest)
  · simpa only [Engine.operands, Regs.operands, Prod.mk.injEq] using And.intro heng hregs

end Sys2Proof.Machine
end

section
/-! The decoder on a length field, byte by byte: what it answers on a well-formed field, whatever follows. -/

namespace Sys2Proof.Machine

/-- A group put above the groups already in the accumulator adds its weight (40_varlen_codec.md R117). -/
theorem toNat_or_group {acc : RemLen} {i : Nat} {g : BitVec 7} (hi : i ≤ 3) (ha : acc.toNat < 2 ^ (7 * i)) :
    (acc ||| (g.setWidth 28 <<< (7 * i))).toNat = acc.toNat + 2 ^ (7 * i) * g.toNat := by
  have hpow : 2 ^ (7 * i) * 2 ^ 7 ≤ 2 ^ 28 := by rw [← pow_add]; exact Nat.pow_le_pow_right (by norm_num) (by omega)
  have hlt : 2 ^ (7 * i) * g.toNat < 2 ^ 28 := (Nat.mul_lt_mul_of_pos_left g.isLt (by positivity)).trans_le hpow
  have hg : (g.setWidth 28).toNat = g.toNat := by
    rw [BitVec.toNat_setWidth]; exact Nat.mod_eq_of_lt (g.isLt.trans (by norm_num))
  rw [BitVec.toNat_or, BitVec.toNat_shiftLeft, hg, Nat.shiftLeft_eq, mul_comm g.toNat, Nat.mod_eq_of_lt hlt,
    Nat.or_comm, ← Nat.two_pow_add_eq_or_of_lt ha, add_comm]

/-- The byte count does not wrap while the decoder goes on (10_state.md R38). -/
theorem count_succ_toNat {i : Count} (hi : i.toNat ≤ 3) : (i + 1).toNat = i.toNat + 1 := by
  rw [BitVec.toNat_add, show (1 : Count).toNat = 1 from rfl, Nat.mod_eq_of_lt (by omega)]

/-- A byte that does not continue ends the field (R110). -/
theorem varDecStep_of_ends (acc : RemLen) (i : Count) {b : Byte} (hb : contBit b = false) :
    varDecStep acc i b = .done (acc ||| ((group b).setWidth 28 <<< (7 * i.toNat))) (i + 1) := by
  simp [varDecStep, hb]

/-- A byte that continues asks for another, unless it is the fourth (R110, R111). -/
theorem varDecStep_of_continues (acc : RemLen) {i : Count} {b : Byte} (hb : contBit b = true) (hi : i.toNat < 3) :
    varDecStep acc i b = .more (acc ||| ((group b).setWidth 28 <<< (7 * i.toNat))) (i + 1) := by
  have hne : i + 1 ≠ 4 := fun h => by
    have := count_succ_toNat hi.le
    rw [h, show (4 : Count).toNat = 4 from rfl] at this
    omega
  simpa [varDecStep, hb] using hne

/-- A field that continues the groups already in the accumulator decodes to their sum, and its bytes are counted on. -/
theorem varDecode_field {front : List Byte} {last : Byte} (more : List Byte) {acc : RemLen} {i : Count}
    (hfront : allContinue front) (hlast : contBit last = false) (hi : i.toNat + front.length ≤ 3)
    (hacc : acc.toNat < 2 ^ (7 * i.toNat)) :
    ∃ a n, varDecode acc i (front ++ last :: more) = some (.done a n) ∧
      a.toNat = acc.toNat + 2 ^ (7 * i.toNat) * groupSum (front ++ [last]) ∧ n.toNat = i.toNat + front.length + 1 := by
  induction front generalizing acc i with
  | nil =>
    have hi' : i.toNat ≤ 3 := hi
    refine ⟨_, _, by rw [List.nil_append, varDecode, varDecStep_of_ends acc i hlast], ?_, count_succ_toNat hi'⟩
    rw [toNat_or_group hi' hacc]
    simp [groupSum]
  | cons b front ih =>
    rw [List.length_cons] at hi
    have hb : contBit b = true := hfront b List.mem_cons_self
    have hsucc := count_succ_toNat (i := i) (by omega)
    obtain ⟨a, n, hdec, ha, hn⟩ := ih (acc := acc ||| ((group b).setWidth 28 <<< (7 * i.toNat))) (i := i + 1)
      (fun x hx => hfront x (List.mem_cons_of_mem b hx)) (by omega) (by rw [hsucc]; exact or_group_lt hacc)
    refine ⟨a, n, ?_, ?_, ?_⟩
    · rw [List.cons_append, varDecode, varDecStep_of_continues acc hb (by omega)]
      exact hdec
    · rw [ha, hsucc, toNat_or_group (by omega) hacc, List.cons_append, groupSum, mul_add 7, pow_add]
      ring
    · rw [hn, hsucc, List.length_cons]
      omega

/-- The decoder on a well-formed field: the sum of its groups, and its length (R88, R110, R117). -/
theorem varDecode_wellFormed {bs : List Byte} (more : List Byte) (h : wellFormedField bs) :
    ∃ a n, varDecode 0 0 (bs ++ more) = some (.done a n) ∧ a.toNat = groupSum bs ∧ n.toNat = bs.length := by
  obtain ⟨front, last, rfl, hlen, hfront, hlast⟩ := h
  obtain ⟨a, n, hdec, ha, hn⟩ := varDecode_field more (acc := 0) (i := 0) hfront hlast (by simpa using hlen) (by simp)
  exact ⟨a, n, by simpa using hdec, by simpa using ha, by simpa [add_comm] using hn⟩

end Sys2Proof.Machine
end

section
/-! Runs with no turn given (log 3): performing the writes that are due, and making a transport call up to its answer. A
claim about a whole command is put together from these two, by `Exchanges.trans`. -/

namespace Sys2Proof.Machine

/-! ### The calls and answers of a run -/

/-- The deadline token the running command makes its calls under, if any (10_state.md R38). -/
def Engine.deadline (e : Engine) : Option Word := if e.hasL then some e.tokL else none

/-- The DeadlineSource has so many answers left for the running command, if it runs under a deadline. -/
def State.CanAsk (s : State) (n : Nat) : Prop := s.eng.hasL = true → n ≤ s.deadlineAnswers.length

/-- Some steps lead from s to t, in which the running command makes exactly these calls and takes exactly these answers
to them, and queries the DeadlineSource once for each, if it runs under a deadline. -/
structure Exchanges (s : State) (calls : List Call) (answers : List Answer) (t : State) : Prop where
  runs : ∃ k, s.runsTo k t
  turns : t.turns = s.turns
  cfg : t.cfg = s.cfg
  operands : t.eng.operands = s.eng.operands
  xportAnswers : s.xportAnswers = answers ++ t.xportAnswers
  deadlineAnswers :
    t.deadlineAnswers = if s.eng.hasL then s.deadlineAnswers.drop calls.length else s.deadlineAnswers
  log : t.log = s.log ++ portCalls s.eng.deadline s.deadlineAnswers calls

/-- Answers enough for more calls are enough for fewer. -/
theorem State.CanAsk.mono {s : State} {m n : Nat} (h : s.CanAsk n) (hmn : m ≤ n) : s.CanAsk m :=
  fun hl => hmn.trans (h hl)

/-- What calls send out, the first of them and then the others. -/
theorem portCalls_append (dl : Option Word) (ms : List Word) (cs cs' : List Call) :
    portCalls dl ms (cs ++ cs') =
      portCalls dl ms cs ++ portCalls dl (if dl.isSome then ms.drop cs.length else ms) cs' := by
  induction cs generalizing ms with
  | nil => simp [portCalls]
  | cons c cs ih => cases dl <;> simp [portCalls, ih]

/-- Operands that have not changed name the same deadline. -/
theorem Engine.deadline_of_operands {e e' : Engine} (h : e'.operands = e.operands) :
    e'.hasL = e.hasL ∧ e'.deadline = e.deadline := by
  simp only [Engine.operands, Prod.mk.injEq] at h
  obtain ⟨-, -, -, htok, hhas⟩ := h
  exact ⟨hhas, by simp [Engine.deadline, htok, hhas]⟩

/-- Nothing happens in no step. -/
theorem Exchanges.refl (s : State) : Exchanges s [] [] s where
  runs := ⟨0, s.runsTo_zero⟩
  turns := rfl
  cfg := rfl
  operands := rfl
  xportAnswers := rfl
  deadlineAnswers := by simp
  log := by simp [portCalls]

/-- Runs join, and their calls and answers follow one another. -/
theorem Exchanges.trans {s t u : State} {cs cs' : List Call} {as as' : List Answer} (h : Exchanges s cs as t)
    (h' : Exchanges t cs' as' u) : Exchanges s (cs ++ cs') (as ++ as') u := by
  obtain ⟨j, hj⟩ := h.runs
  obtain ⟨k, hk⟩ := h'.runs
  obtain ⟨hhas, hdl⟩ := Engine.deadline_of_operands h.operands
  refine ⟨⟨j + k, State.runsTo_add hj hk⟩, h'.turns.trans h.turns, h'.cfg.trans h.cfg, h'.operands.trans h.operands, ?_,
    ?_, ?_⟩
  · rw [h.xportAnswers, h'.xportAnswers, List.append_assoc]
  · rw [h'.deadlineAnswers, h.deadlineAnswers, hhas]
    cases s.eng.hasL <;> simp
  · rw [h'.log, h.log, hdl, h.deadlineAnswers, portCalls_append, List.append_assoc]
    cases hl : s.eng.hasL <;> simp [Engine.deadline, hl]

/-- A step that asks no agent and takes no answer is a run of its own. -/
theorem Exchanges.of_step {s t : State} (h : step s = .next t) (hturns : t.turns = s.turns) (hcfg : t.cfg = s.cfg)
    (hops : t.eng.operands = s.eng.operands) (hxport : t.xportAnswers = s.xportAnswers)
    (hdeadline : t.deadlineAnswers = s.deadlineAnswers) (hlog : t.log = s.log) : Exchanges s [] [] t where
  runs := ⟨1, State.runsTo_succ.2 ⟨t, h, t.runsTo_zero⟩⟩
  turns := hturns
  cfg := hcfg
  operands := hops
  xportAnswers := hxport.symm
  deadlineAnswers := by simp [hdeadline]
  log := by simp [hlog, portCalls]

/-- After the calls of a run the DeadlineSource has the other answers left. -/
theorem Exchanges.canAsk {s t : State} {cs : List Call} {as : List Answer} {n : Nat} (h : Exchanges s cs as t)
    (hs : s.CanAsk (cs.length + n)) : t.CanAsk n := by
  intro hl
  rw [(Engine.deadline_of_operands h.operands).1] at hl
  have hlen := hs hl
  rw [h.deadlineAnswers, if_pos hl, List.length_drop]
  omega

/-- After the answers a run takes the Transport has the other answers left. -/
theorem Exchanges.answers_left {s t : State} {cs : List Call} {as more : List Answer} (h : Exchanges s cs as t)
    (hs : s.xportAnswers = as ++ more) : t.xportAnswers = more :=
  List.append_cancel_left (h.xportAnswers.symm.trans hs)

/-! ### The writes that are due -/

/-- No turn is given, and a command runs and waits for nothing: the next step is the Engine's. -/
structure State.Runs (s : State) : Prop where
  turns : s.turns = []
  phase : s.eng.phase ≠ .idle
  wait : s.eng.wait = .none

/-- A write that neither asks an agent nor ends the command, and is inside BUF. -/
def Micro.Plain (c : Config) : Micro → Prop
  | .memWrite a _ => a < c.bufSize.toNat
  | .setPhase p => p ≠ .idle
  | .send _ | .finish _ => False
  | _ => True

/-- BUF once these writes are performed, beside `settleRegs` and `settleEngine`. -/
def settleBuf : List Micro → Memory → Memory
  | [], m => m
  | op :: ops, m => settleBuf ops (onBuf op m)

/-- The state once these writes are performed and those are still due. -/
def State.settled (s : State) (ops rest : List Micro) : State :=
  { s with regs := settleRegs ops s.regs, eng := settleEngine ops s.eng, buf := settleBuf ops s.buf, todo := rest }

/-- The Engine's step when it waits for nothing and a write is due: the write is performed. -/
theorem engineStep_of_due {s : State} {op : Micro} {rest : List Micro} (hp : s.eng.phase ≠ .idle)
    (hw : s.eng.wait = .none) (hd : s.todo = op :: rest) : engineStep s = perform op { s with todo := rest } := by
  cases hphase : s.eng.phase <;> simp_all [engineStep, dropTodo]

/-- The next step when a write is due. -/
theorem State.Runs.step_write {s : State} (h : s.Runs) {op : Micro} {rest : List Micro} (hd : s.todo = op :: rest) :
    step s = perform op { s with todo := rest } := by
  rw [step_default h.turns, defaultStep, h.wait]
  exact engineStep_of_due h.phase h.wait hd

/-- The next step when nothing is due. -/
theorem State.Runs.step_call {s : State} (h : s.Runs) (hd : s.todo = []) : step s = beginCall s := by
  rw [step_default h.turns, defaultStep, h.wait]
  exact engineStep_of_nothing_due h.phase h.wait hd

/-- A plain write does what the three functions say. -/
theorem perform_of_plain {op : Micro} {s : State} (hop : op.Plain s.cfg) :
    perform op s = .next { s with regs := onRegs op s.regs, eng := onEngine op s.eng, buf := onBuf op s.buf } := by
  cases op with
  | memWrite a b =>
    have ha : a < s.cfg.bufSize.toNat := hop
    simp [perform, ha, onRegs, onEngine, onBuf]
  | send _ | finish _ => exact hop.elim
  | _ => rfl

/-- A plain write leaves a running command running. -/
theorem onEngine_of_plain {op : Micro} {c : Config} (hop : op.Plain c) {e : Engine} (hp : e.phase ≠ .idle)
    (hw : e.wait = .none) : (onEngine op e).phase ≠ .idle ∧ (onEngine op e).wait = .none := by
  cases op with
  | setPhase p => exact ⟨hop, hw⟩
  | send _ | finish _ => exact hop.elim
  | _ => exact ⟨hp, hw⟩

/-- Plain writes that are due are performed, one per step, and leave the command running. -/
theorem State.Runs.perform_plain {s : State} (h : s.Runs) {ops rest : List Micro} (hd : s.todo = ops ++ rest)
    (hops : ∀ op ∈ ops, op.Plain s.cfg) :
    Exchanges s [] [] (s.settled ops rest) ∧ (s.settled ops rest).Runs := by
  induction ops generalizing s with
  | nil =>
    obtain rfl : rest = s.todo := hd.symm
    exact ⟨.refl s, h⟩
  | cons op ops ih =>
    have hop := hops op List.mem_cons_self
    have hstep := (h.step_write hd).trans (perform_of_plain hop)
    obtain ⟨hp, hw⟩ := onEngine_of_plain hop h.phase h.wait
    have hfirst := Exchanges.of_step hstep rfl rfl (onEngine_operands op s.eng) rfl rfl rfl
    obtain ⟨hrest, hruns⟩ := ih (s := { s with
      regs := onRegs op s.regs, eng := onEngine op s.eng, buf := onBuf op s.buf, todo := ops ++ rest })
      ⟨h.turns, hp, hw⟩ rfl fun o ho => hops o (List.mem_cons_of_mem op ho)
    exact ⟨hfirst.trans hrest, hruns⟩

/-- The last write of a command ends it. -/
theorem State.Runs.perform_finish {s : State} (h : s.Runs) {c : ErrCode} {rest : List Micro}
    (hd : s.todo = .finish c :: rest) : Exchanges s [] [] (finish c s) :=
  .of_step (h.step_write hd) rfl rfl rfl rfl rfl rfl

/-- A rule with nothing left to do ends the command. -/
theorem State.Runs.complete {s : State} (h : s.Runs) (hd : s.todo = []) (hplan : plan s = .complete) :
    Exchanges s [] [] (finish .none s) :=
  .of_step ((h.step_call hd).trans (by rw [beginCall, hplan])) rfl rfl rfl rfl rfl rfl

/-! ### A transport call -/

/-- While the Engine waits for the Transport, its answer is taken, and the writes it leads to are due. -/
theorem step_answer {s : State} {ans : Answer} {more : List Answer} (hturns : s.turns = []) (hw : s.eng.wait = .xport)
    (hans : s.xportAnswers = ans :: more) (hwf : ans.wf s.eng.req.dir = true) :
    step s = .next (State.answered { s with xportAnswers := more } (answerOps s ans)) := by
  rw [step_default hturns, defaultStep, hw]
  simp only [transportStep, hans, hw, hwf, if_true]
  rfl

/-- While the Engine waits for the DeadlineSource, its answer is taken, and the request with that timeout is due. -/
theorem step_deadline {s : State} {ms : Word} {more : List Word} (hturns : s.turns = []) (hw : s.eng.wait = .timer)
    (hans : s.deadlineAnswers = ms :: more) :
    step s = .next (State.answered { s with deadlineAnswers := more } [.send ms]) := by
  rw [step_default hturns, defaultStep, hw]
  simp only [deadlineStep, hans, hw, if_true]

/-- The request of the planned call goes out. -/
theorem sendRequest_of_call {s : State} {d : Dir} {n : Word} {data : List Byte} (timeout : Word)
    (hplan : plan s = .call d n data) :
    sendRequest timeout s = .next (emit (.request ⟨d, n, timeout, data⟩)
      { s with eng := { s.eng with req := ⟨d, n, timeout, data⟩, wait := .xport } }) := by
  rw [sendRequest, hplan]

/-- The state once the DeadlineSource is queried for the call under way (R161). -/
def State.queried (s : State) : State := emit (.query s.eng.tokL) { s with eng := { s.eng with wait := .timer } }

/-- The state once this request of the running command is out, after a query if it runs under a deadline (R161). -/
def State.requested (s : State) (r : Request) : State :=
  { s with
    eng := { s.eng with wait := .xport, req := r }
    deadlineAnswers := if s.eng.hasL then s.deadlineAnswers.drop 1 else s.deadlineAnswers
    log := s.log ++ portCalls s.eng.deadline s.deadlineAnswers [(r.dir, r.n, r.wdata)] }

/-- The Engine sends the request of the planned call, in one step or, under a deadline, in three. -/
theorem State.Runs.reaches_request {s : State} (h : s.Runs) (hd : s.todo = []) {d : Dir} {n : Word} {data : List Byte}
    (hplan : plan s = .call d n data) (hask : s.CanAsk 1) :
    ∃ k timeout, s.runsTo k (s.requested ⟨d, n, timeout, data⟩) := by
  cases hl : s.eng.hasL with
  | false =>
    have hstep : step s = sendRequest unbounded s := by simp [h.step_call hd, beginCall, hplan, hl]
    refine ⟨1, unbounded, State.runsTo_succ.2 ⟨_, hstep.trans (sendRequest_of_call _ hplan), ?_⟩⟩
    simp [State.runsTo, Host.Core.run, emit, State.requested, portCalls, Engine.deadline, hl]
  | true =>
    obtain ⟨ms, more, hms⟩ := List.exists_cons_of_length_pos (hask hl)
    have hquery : step s = .next s.queried := by simp [h.step_call hd, beginCall, hplan, hl, State.queried]
    have hanswer := step_deadline (s := s.queried) h.turns rfl hms
    have hsend := State.Runs.step_write (s := State.answered { s.queried with deadlineAnswers := more } [.send ms])
      ⟨h.turns, h.phase, rfl⟩ rfl
    refine ⟨3, ms, State.runsTo_succ.2 ⟨_, hquery, State.runsTo_succ.2 ⟨_, hanswer,
      State.runsTo_succ.2 ⟨_, hsend.trans (sendRequest_of_call _ hplan), ?_⟩⟩⟩⟩
    simp [State.runsTo, Host.Core.run, emit, State.queried, State.requested, portCalls, Engine.deadline, hl, hms, hd]

/-- One transport call and its answer: the Engine's fields but `req`, the registers and BUF are as before, and the writes
that the answer leads to are due (42_packet_framer.md R162). -/
theorem State.Runs.exchange {s : State} (h : s.Runs) (hd : s.todo = []) {d : Dir} {n : Word} {data : List Byte}
    (hplan : plan s = .call d n data) (hask : s.CanAsk 1) {ans : Answer} {more : List Answer}
    (hans : s.xportAnswers = ans :: more) (hwf : ans.wf d = true) :
    ∃ t, Exchanges s [(d, n, data)] [ans] t ∧ t.Runs ∧ t.regs = s.regs ∧ t.buf = s.buf ∧
      t.eng = { s.eng with req := t.eng.req } ∧ t.eng.req.dir = d ∧ t.eng.req.n = n ∧ t.todo = answerOps t ans := by
  obtain ⟨k, timeout, hrun⟩ := h.reaches_request hd hplan hask
  have hanswer := State.runsTo_succ.2
    ⟨_, step_answer (s := s.requested ⟨d, n, timeout, data⟩) h.turns rfl hans hwf, State.runsTo_zero _⟩
  refine ⟨_, ⟨⟨_, State.runsTo_add hrun hanswer⟩, rfl, rfl, rfl, hans, rfl, rfl⟩, ⟨h.turns, h.phase, rfl⟩, rfl, rfl, ?_,
    rfl, rfl, rfl⟩
  simp [← h.wait, State.requested]

/-- A read that is answered with bytes, at least one and no more than it asks for: what the command does with them is due
(R163). -/
theorem State.Runs.exchange_bytes {s : State} (h : s.Runs) (hd : s.todo = []) {n : Word} {data : List Byte}
    (hplan : plan s = .call .read n data) (hask : s.CanAsk 1) {bs : List Byte} {more : List Answer}
    (hans : s.xportAnswers = Answer.okBytes bs :: more) (hpos : 1 ≤ bs.length) (hle : bs.length ≤ n.toNat) :
    ∃ t, Exchanges s [(.read, n, data)] [Answer.okBytes bs] t ∧ t.Runs ∧ t.regs = s.regs ∧ t.buf = s.buf ∧
      t.eng = { s.eng with req := t.eng.req } ∧ t.todo = dataOps t bs := by
  have hlen : (BitVec.ofNat 32 bs.length).toNat = bs.length := Nat.mod_eq_of_lt (hle.trans_lt n.isLt)
  have hwf : (Answer.okBytes bs).wf .read = true := by simp [Answer.wf, Answer.okBytes, hlen]
  obtain ⟨t, hex, hruns, hregs, hbuf, heng, hdir, hn, htodo⟩ := h.exchange hd hplan hask hans hwf
  have hres : readResult (Answer.okBytes bs) n = .ok bs := by
    have hcount : 1 ≤ BitVec.ofNat 32 bs.length ∧ BitVec.ofNat 32 bs.length ≤ n := by
      simp only [BitVec.le_def, hlen]; exact ⟨hpos, hle⟩
    exact if_pos hcount
  refine ⟨t, hex, hruns, hregs, hbuf, heng, ?_⟩
  rw [htodo, answerOps, hdir, hn, hres]

end Sys2Proof.Machine
end

section
/-! READ_PACKET on a packet that fits (O33): the header byte, the length field, the stored length and the payload, each the
run of one part of the rule. -/

namespace Sys2Proof.Machine

/-! ### Bytes in BUF -/

/-- BUF with these bytes written from address a upwards. -/
def Memory.store (m : Memory) : Nat → List Byte → Memory
  | _, [] => m
  | a, b :: bs => Memory.store (m.write a b) (a + 1) bs

/-- Writing the bytes one by one is storing them all. -/
theorem settleBuf_memWriteOps (a : Nat) (bs : List Byte) (ops : List Micro) (m : Memory) :
    settleBuf (memWriteOps a bs ++ ops) m = settleBuf ops (m.store a bs) := by
  induction bs generalizing a m with
  | nil => rfl
  | cons b bs ih => exact ih (a + 1) (m.write a b)

/-- Writing ENC_BYTES leaves BUF. -/
theorem settleBuf_encByteOps (k : Nat) (bs : List Byte) (ops : List Micro) (m : Memory) :
    settleBuf (encByteOps k bs ++ ops) m = settleBuf ops m := by
  induction bs generalizing k with
  | nil => rfl
  | cons b bs ih => exact ih (k + 1)

/-- Stored bytes leave the addresses below them. -/
theorem Memory.read_store_of_lt (m : Memory) {a x : Nat} (bs : List Byte) (h : x < a) :
    (m.store a bs).read x = m.read x := by
  induction bs generalizing a m with
  | nil => rfl
  | cons b bs ih =>
    rw [Memory.store, ih _ (by omega), Memory.read_write, if_neg (by omega)]

/-- What stands at and above the address that bytes were stored at: the bytes, and then what was there before. -/
theorem Memory.read_store_add (m : Memory) (a j : Nat) (bs : List Byte) :
    (m.store a bs).read (a + j) = if j < bs.length then bs[j]? else m.read (a + j) := by
  induction bs generalizing a j m with
  | nil => rfl
  | cons b bs ih =>
    rw [Memory.store]
    cases j with
    | zero => simp [Memory.read_store_of_lt]
    | succ j =>
      have haddr : a + (j + 1) = a + 1 + j := by omega
      have hne : a + 1 + j ≠ a := by omega
      rw [haddr, ih]
      simp [hne]

/-- BUF m holds these bytes from address 0 upwards, and beyond them what m₀ holds. -/
def Memory.Begins (m m₀ : Memory) (bs : List Byte) : Prop :=
  ∀ a, m.read a = if a < bs.length then bs[a]? else m₀.read a

/-- Bytes stored behind those that BUF begins with. -/
theorem Memory.Begins.store {m m₀ : Memory} {bs : List Byte} (h : m.Begins m₀ bs) (cs : List Byte) :
    (m.store bs.length cs).Begins m₀ (bs ++ cs) := by
  intro a
  obtain ha | ha := lt_or_ge a bs.length
  · rw [Memory.read_store_of_lt m cs ha, h a, if_pos ha, if_pos (by simp; omega), List.getElem?_append_left ha]
  · obtain ⟨j, rfl⟩ := Nat.exists_eq_add_of_le ha
    rw [Memory.read_store_add, h, List.getElem?_append_right ha, List.length_append, Nat.add_sub_cancel_left]
    simp

/-! ### The header byte -/

/-- Bits 7 to 4 of the header byte (41_header_codec.md R140). -/
theorem hdrType_eq_extractLsb' (h : Byte) : hdrType h = h.extractLsb' 4 4 := by
  ext i hi
  simp only [hdrType, BitVec.getElem_setWidth, BitVec.getLsbD_and, BitVec.getLsbD_ushiftRight,
    BitVec.getElem_extractLsb']
  interval_cases i <;> simp

/-- What is due on the header byte. -/
theorem dataOps_header {s : State} (hp : s.eng.phase = .rpHdr) (h : Byte) :
    dataOps s [h] = [.memWrite 0 h, .setHdr h, .setPhase .rpLen] := by
  simp [dataOps, hp]

/-- The header byte of READ_PACKET (42_packet_framer.md R172): its call, and what it writes. -/
theorem State.Runs.header {s : State} (hs : s.Runs) (hd : s.todo = []) (hp : s.eng.phase = .rpHdr) (hask : s.CanAsk 1)
    {h : Byte} {more : List Answer} (hans : s.xportAnswers = Answer.okBytes [h] :: more)
    (hin : 0 < s.cfg.bufSize.toNat) :
    ∃ t, Exchanges s [byteCall] [Answer.okBytes [h]] t ∧ t.Runs ∧ t.todo = [] ∧
      t.regs = { s.regs with hdr := Hdr.ofByte h } ∧ t.eng = { s.eng with phase := .rpLen, req := t.eng.req } ∧
      t.buf = s.buf.write 0 h := by
  have hplan : plan s = .call .read 1 [] := by rw [plan, hp]
  obtain ⟨t, hex, hruns, hregs, hbuf, heng, htodo⟩ := hs.exchange_bytes hd hplan hask hans le_rfl le_rfl
  rw [dataOps_header ((congrArg Engine.phase heng).trans hp)] at htodo
  have hplain : ∀ op ∈ [Micro.memWrite 0 h, .setHdr h, .setPhase .rpLen], op.Plain t.cfg := by
    simp [Micro.Plain, hex.cfg, hin]
  obtain ⟨hset, hruns'⟩ := hruns.perform_plain (rest := []) (htodo.trans (List.append_nil _).symm) hplain
  refine ⟨_, hex.trans hset, hruns', rfl, ?_, ?_, ?_⟩
  · simp only [State.settled, settleRegs, onRegs, hregs]
  · simp only [State.settled, settleEngine, onEngine]
    rw [heng]
  · simp only [State.settled, settleBuf, onBuf, hbuf]

/-! ### The length field -/

/-- What the command does with a decoded length: LEN_DECODE ends with it, READ_PACKET stores it and goes on. -/
def decodedOps (e : Engine) (v : RemLen) : List Micro :=
  if e.phase = .ld then [.setLenValue (v.setWidth 32), .finish .none] else lengthOps e.capL v

/-- What is due on one length byte. -/
theorem dataOps_lengthByte {s : State} (hp : s.eng.phase = .ld ∨ s.eng.phase = .rpLen) (b : Byte) :
    dataOps s [b] = lenByteOps s b := by
  obtain hp | hp := hp <;> simp [dataOps, hp]

/-- The call for a length byte, and its answer. -/
theorem State.Runs.lengthByte {s : State} (hs : s.Runs) (hd : s.todo = [])
    (hp : s.eng.phase = .ld ∨ s.eng.phase = .rpLen) (hask : s.CanAsk 1) {b : Byte} {more : List Answer}
    (hans : s.xportAnswers = Answer.okBytes [b] :: more) :
    ∃ t, Exchanges s [byteCall] [Answer.okBytes [b]] t ∧ t.Runs ∧ t.regs = s.regs ∧ t.buf = s.buf ∧
      t.eng = { s.eng with req := t.eng.req } ∧ t.todo = lenByteOps s b := by
  have hplan : plan s = .call .read 1 [] := by obtain hp | hp := hp <;> rw [plan, hp]
  obtain ⟨t, hex, hruns, hregs, hbuf, heng, htodo⟩ := hs.exchange_bytes hd hplan hask hans le_rfl le_rfl
  rw [dataOps_lengthByte (by rw [heng]; exact hp)] at htodo
  have hops : lenByteOps t b = lenByteOps s b := by unfold lenByteOps; rw [heng]
  exact ⟨t, hex, hruns, hregs, hbuf, heng, htodo.trans hops⟩

/-- A length byte that continues: the decoder has one more group, and WIRE_COUNT counts the byte (R112). -/
theorem State.Runs.lengthByte_continues {s : State} (hs : s.Runs) (hd : s.todo = [])
    (hp : s.eng.phase = .ld ∨ s.eng.phase = .rpLen) (hask : s.CanAsk 1) {b : Byte} {more : List Answer}
    (hans : s.xportAnswers = Answer.okBytes [b] :: more) {a : RemLen} {i : Count}
    (hdec : varDecStep s.eng.acc s.eng.i b = .more a i) :
    ∃ t, Exchanges s [byteCall] [Answer.okBytes [b]] t ∧ t.Runs ∧ t.todo = [] ∧
      t.regs = { s.regs with lenInfo := { s.regs.lenInfo with wireCount := s.eng.i + 1 } } ∧
      t.eng = { s.eng with i := s.eng.i + 1, acc := a, req := t.eng.req } ∧ t.buf = s.buf := by
  obtain ⟨t, hex, hruns, hregs, hbuf, heng, htodo⟩ := hs.lengthByte hd hp hask hans
  rw [lenByteOps, hdec] at htodo
  obtain ⟨hset, hruns'⟩ := hruns.perform_plain (rest := []) (htodo.trans (List.append_nil _).symm) (by simp [Micro.Plain])
  refine ⟨_, hex.trans hset, hruns', rfl, ?_, ?_, ?_⟩
  · simp only [State.settled, List.cons_append, List.nil_append, settleRegs, onRegs, hregs]
  · simp only [State.settled, List.cons_append, List.nil_append, settleEngine, onEngine]
    rw [heng]
  · simp only [State.settled, List.cons_append, List.nil_append, settleBuf, onBuf, hbuf]

/-- The length byte that ends the field: the value is decoded, and what the command does with it is due. -/
theorem State.Runs.lengthByte_ends {s : State} (hs : s.Runs) (hd : s.todo = [])
    (hp : s.eng.phase = .ld ∨ s.eng.phase = .rpLen) (hask : s.CanAsk 1) {b : Byte} {more : List Answer}
    (hans : s.xportAnswers = Answer.okBytes [b] :: more) {v : RemLen} {i : Count}
    (hdec : varDecStep s.eng.acc s.eng.i b = .done v i) :
    ∃ t, Exchanges s [byteCall] [Answer.okBytes [b]] t ∧ t.Runs ∧ t.todo = decodedOps s.eng v ∧
      t.regs = { s.regs with lenInfo := { s.regs.lenInfo with wireCount := s.eng.i + 1 } } ∧
      t.eng = { s.eng with i := s.eng.i + 1, acc := v, req := t.eng.req } ∧ t.buf = s.buf := by
  obtain ⟨t, hex, hruns, hregs, hbuf, heng, htodo⟩ := hs.lengthByte hd hp hask hans
  rw [lenByteOps, hdec] at htodo
  obtain ⟨hset, hruns'⟩ := hruns.perform_plain (ops := [.setI (s.eng.i + 1), .setWireCount (s.eng.i + 1), .setAcc v])
    (rest := decodedOps s.eng v) htodo (by simp [Micro.Plain])
  refine ⟨_, hex.trans hset, hruns', rfl, ?_, ?_, ?_⟩
  · simp only [State.settled, settleRegs, onRegs, hregs]
  · simp only [State.settled, settleEngine, onEngine]
    rw [heng]
  · simp only [State.settled, settleBuf, onBuf, hbuf]

/-- Length bytes that all continue, at most three: the decoder stands where they lead, and WIRE_COUNT counts them. -/
theorem State.Runs.lengthField_continues {s : State} (hs : s.Runs) (hd : s.todo = [])
    (hp : s.eng.phase = .ld ∨ s.eng.phase = .rpLen) (hcount : s.regs.lenInfo.wireCount = s.eng.i) {bs : List Byte}
    (hbs : allContinue bs) (hlen : s.eng.i.toNat + bs.length ≤ 3) (hask : s.CanAsk bs.length) {more : List Answer}
    (hans : s.xportAnswers = byteAnswers bs ++ more) :
    ∃ t, Exchanges s (List.replicate bs.length byteCall) (byteAnswers bs) t ∧ t.Runs ∧ t.todo = [] ∧
      t.regs = { s.regs with lenInfo := { s.regs.lenInfo with wireCount := t.eng.i } } ∧
      t.eng = { s.eng with i := t.eng.i, acc := t.eng.acc, req := t.eng.req } ∧ t.buf = s.buf ∧
      t.eng.i.toNat = s.eng.i.toNat + bs.length ∧
      ∀ cs, varDecode s.eng.acc s.eng.i (bs ++ cs) = varDecode t.eng.acc t.eng.i cs := by
  induction bs generalizing s with
  | nil => exact ⟨s, .refl s, hs, hd, by simp [← hcount], rfl, rfl, rfl, fun _ => rfl⟩
  | cons b bs ih =>
    rw [List.length_cons] at hlen
    have hdec := varDecStep_of_continues s.eng.acc (hbs b List.mem_cons_self) (by omega : s.eng.i.toNat < 3)
    obtain ⟨t, hex, hruns, htodo, hregs, heng, hbuf⟩ :=
      hs.lengthByte_continues hd hp (hask.mono (Nat.le_add_left 1 _)) hans hdec
    have hi : t.eng.i = s.eng.i + 1 := congrArg Engine.i heng
    have hacc : t.eng.acc = _ := congrArg Engine.acc heng
    have hphase : t.eng.phase = s.eng.phase := (congrArg Engine.phase heng :)
    have hsucc := count_succ_toNat (i := s.eng.i) (by omega)
    obtain ⟨u, hex', hruns', htodo', hregs', heng', hbuf', hi', hdec'⟩ := ih hruns htodo (hphase ▸ hp)
      (by rw [hregs, hi]) (fun x hx => hbs x (List.mem_cons_of_mem b hx)) (by rw [hi, hsucc]; omega)
      (hex.canAsk (by rwa [add_comm])) (hex.answers_left hans)
    refine ⟨u, hex.trans hex', hruns', htodo', ?_, ?_, hbuf'.trans hbuf, ?_, fun cs => ?_⟩
    · rw [hregs', hregs]
    · rw [heng', heng]
    · rw [hi', hi, hsucc, List.length_cons]; omega
    · rw [← hdec', hi, hacc, List.cons_append, varDecode, hdec]

/-- A whole well-formed length field: its value is decoded, WIRE_COUNT counts its bytes, and what the command does with
the value is due (40_varlen_codec.md R112). -/
theorem State.Runs.lengthField {s : State} (hs : s.Runs) (hd : s.todo = [])
    (hp : s.eng.phase = .ld ∨ s.eng.phase = .rpLen) (hcount : s.regs.lenInfo.wireCount = 0) (hi : s.eng.i = 0)
    (hacc : s.eng.acc = 0) {bs : List Byte} (hbs : wellFormedField bs) {v : RemLen} (hv : v.toNat = groupSum bs)
    (hask : s.CanAsk bs.length) {more : List Answer} (hans : s.xportAnswers = byteAnswers bs ++ more) :
    ∃ t, Exchanges s (List.replicate bs.length byteCall) (byteAnswers bs) t ∧ t.Runs ∧ t.todo = decodedOps s.eng v ∧
      t.regs = { s.regs with lenInfo := { s.regs.lenInfo with wireCount := BitVec.ofNat 3 bs.length } } ∧
      t.eng = { s.eng with i := t.eng.i, acc := t.eng.acc, req := t.eng.req } ∧ t.buf = s.buf := by
  obtain ⟨a, n, hdecode, ha, -⟩ := varDecode_wellFormed [] hbs
  obtain rfl : a = v := BitVec.eq_of_toNat_eq (ha.trans hv.symm)
  obtain ⟨front, last, rfl, hlen, hfront, hlast⟩ := hbs
  have hi0 : s.eng.i.toNat = 0 := by rw [hi]; rfl
  rw [List.length_append, List.length_singleton] at hask
  have hans' : s.xportAnswers = byteAnswers front ++ (Answer.okBytes [last] :: more) := by simpa [byteAnswers] using hans
  obtain ⟨t, hex, hruns, htodo, hregs, heng, hbuf, hti, hdec⟩ := hs.lengthField_continues hd hp (hcount.trans hi.symm)
    hfront (by omega) (hask.mono (Nat.le_add_right _ 1)) hans'
  have hend := varDecStep_of_ends t.eng.acc t.eng.i hlast
  have hval : t.eng.acc ||| ((group last).setWidth 28 <<< (7 * t.eng.i.toNat)) = a := by
    have hlastDec := (hdec [last]).symm
    rw [hacc, hi, ← List.append_nil (front ++ [last]), hdecode, varDecode, hend] at hlastDec
    simp only [Option.some.injEq, DecResult.done.injEq] at hlastDec
    exact hlastDec.1
  rw [hval] at hend
  obtain ⟨u, hex', hruns', htodo', hregs', heng', hbuf'⟩ := hruns.lengthByte_ends htodo (by rw [heng]; exact hp)
    (hex.canAsk (by simpa using hask)) (hex.answers_left hans') hend
  have hwire : t.eng.i + 1 = BitVec.ofNat 3 (front ++ [last]).length := by
    apply BitVec.eq_of_toNat_eq
    rw [count_succ_toNat (by omega), hti, hi0, List.length_append, List.length_singleton, BitVec.toNat_ofNat]
    omega
  refine ⟨u, ?_, hruns', ?_, ?_, ?_, hbuf'.trans hbuf⟩
  · simpa [byteAnswers, List.replicate_succ'] using hex.trans hex'
  · rw [htodo', decodedOps, heng, decodedOps]
  · rw [hregs', hregs, hwire]
  · rw [heng', heng]

/-! ### The decoded length -/

/-- READ_PACKET takes a decoded length into its registers and its framing fields; the test of the capacity and what comes
after it are due (42_packet_framer.md R173, R175). -/
theorem State.Runs.takeLength {s : State} (hs : s.Runs) {capL : Word} {v : RemLen} (hd : s.todo = lengthOps capL v) :
    ∃ t, Exchanges s [] [] t ∧ t.Runs ∧ t.todo = storeOps capL (varEncode v) v ∧
      t.regs = { s.regs with
        lenValue := v.setWidth 32
        encBytes := setEncBytes s.regs.encBytes 0 (varEncode v)
        lenInfo := ⟨s.regs.lenInfo.wireCount, encCount v, 1 + encCount v⟩ } ∧
      t.eng = { s.eng with v := v, off := 1 + encCount v } ∧ t.buf = s.buf := by
  have hplain : ∀ op ∈ [.setV v, .setLenValue (v.setWidth 32), .setOff (1 + encCount v)] ++ encByteOps 0 (varEncode v) ++
      [.setEncCount (encCount v), .setOffset (1 + encCount v)], op.Plain s.cfg := by
    intro op hop
    simp only [List.mem_append, List.mem_cons, List.not_mem_nil, or_false] at hop
    obtain ((rfl | rfl | rfl) | hop) | rfl | rfl := hop
    case inl.inr => obtain ⟨k, b, rfl⟩ := mem_encByteOps hop; trivial
    all_goals trivial
  obtain ⟨hset, hruns⟩ := hs.perform_plain hd hplain
  refine ⟨_, hset, hruns, rfl, ?_, ?_, ?_⟩
  · simp only [State.settled, List.cons_append, List.nil_append, settleRegs, encByteOps_settleRegs,
      onRegs]
  · simp only [State.settled, List.cons_append, List.nil_append, settleEngine,
      encByteOps_settleEngine, onEngine]
  · simp only [State.settled, List.cons_append, List.nil_append, settleBuf, settleBuf_encByteOps,
      onBuf]

/-- Bytes that are due at an address and fit into BUF are stored there. -/
theorem State.Runs.storeBytes {s : State} (hs : s.Runs) {a : Nat} {bs : List Byte} {rest : List Micro}
    (hd : s.todo = memWriteOps a bs ++ rest) (hfit : a + bs.length ≤ s.cfg.bufSize.toNat) :
    Exchanges s [] [] { s with buf := s.buf.store a bs, todo := rest } ∧
      State.Runs { s with buf := s.buf.store a bs, todo := rest } := by
  have hplain : ∀ op ∈ memWriteOps a bs, op.Plain s.cfg := by
    intro op hop
    obtain ⟨x, b, rfl, -, hx⟩ := mem_memWriteOps hop
    exact hx.trans_le hfit
  have hregs := memWriteOps_settleRegs s.regs a bs []
  have heng := memWriteOps_settleEngine s.eng a bs []
  have hbuf := settleBuf_memWriteOps a bs [] s.buf
  rw [List.append_nil] at hregs heng hbuf
  have hset := hs.perform_plain hd hplain
  rwa [State.settled, hregs, heng, hbuf] at hset

/-! ### The payload -/

/-- There is one call for each chunk. -/
theorem chunkCalls_length (missing : Nat) (chunks : List (List Byte)) :
    (chunkCalls missing chunks).length = chunks.length := by
  induction chunks generalizing missing with
  | nil => rfl
  | cons c cs ih => exact congrArg (· + 1) (ih (missing - c.length))

/-- While payload is missing READ_PACKET asks for all of it (R179). -/
theorem plan_paying {s : State} (hp : s.eng.phase = .rpPay) (hgot : s.eng.got.toNat < s.eng.v.toNat) :
    plan s = .call .read (BitVec.ofNat 32 (s.eng.v.toNat - s.eng.got.toNat)) [] := by
  have hv := s.eng.v.isLt
  have hwide : (s.eng.v.setWidth 32).toNat = s.eng.v.toNat := by
    rw [BitVec.toNat_setWidth]; omega
  have hlt : s.eng.got < s.eng.v.setWidth 32 := by rw [BitVec.lt_def, hwide]; exact hgot
  have hn : s.eng.v.setWidth 32 - s.eng.got = BitVec.ofNat 32 (s.eng.v.toNat - s.eng.got.toNat) := by
    apply BitVec.eq_of_toNat_eq
    rw [BitVec.toNat_sub, hwide, BitVec.toNat_ofNat]
    omega
  rw [plan, hp]
  simp only [hlt, if_true, hn]

/-- When none is missing its rule is complete (R181). -/
theorem plan_paid {s : State} (hp : s.eng.phase = .rpPay) (hgot : s.eng.got.toNat = s.eng.v.toNat) :
    plan s = .complete := by
  have hv := s.eng.v.isLt
  have hlt : ¬ s.eng.got < s.eng.v.setWidth 32 := by
    rw [BitVec.lt_def, BitVec.toNat_setWidth]; omega
  rw [plan, hp]
  simp only [hlt, if_false]

/-- What is due on payload bytes. -/
theorem dataOps_payload {s : State} (hp : s.eng.phase = .rpPay) (bs : List Byte) :
    dataOps s bs = memWriteOps (s.eng.off.toNat + s.eng.got.toNat) bs ++
      [.setGot (s.eng.got + BitVec.ofNat 32 bs.length), .setXferCount (s.eng.got + BitVec.ofNat 32 bs.length)] := by
  cases bs <;> simp [dataOps, hp]

/-- READ_PACKET at its next payload call: BUF begins with the bytes stored so far, the header, the length and the payload
received, and the whole payload has room behind the first two (R177 to R179). -/
structure State.Paying (s : State) (m₀ : Memory) (stored : List Byte) : Prop where
  runs : s.Runs
  due : s.todo = []
  phase : s.eng.phase = .rpPay
  room : s.eng.off.toNat + s.eng.v.toNat ≤ s.cfg.bufSize.toNat
  counted : s.regs.xferCount = s.eng.got
  begins : s.buf.Begins m₀ stored
  length : stored.length = s.eng.off.toNat + s.eng.got.toNat

/-- So many bytes, split into non-empty chunks. -/
def SplitInto (n : Nat) (chunks : List (List Byte)) : Prop := (∀ c ∈ chunks, c ≠ []) ∧ chunks.flatten.length = n

/-- No byte makes no chunk. -/
theorem SplitInto.eq_nil {chunks : List (List Byte)} (h : SplitInto 0 chunks) : chunks = [] := by
  obtain ⟨hne, hlen⟩ := h
  cases chunks with
  | nil => rfl
  | cons c cs =>
    have hc : c = [] := by simp_all
    exact absurd hc (hne c List.mem_cons_self)

/-- The first chunk, and the others of the bytes it leaves. -/
theorem SplitInto.of_cons {n : Nat} {c : List Byte} {cs : List (List Byte)} (h : SplitInto n (c :: cs)) :
    1 ≤ c.length ∧ c.length ≤ n ∧ SplitInto (n - c.length) cs := by
  obtain ⟨hne, hlen⟩ := h
  rw [List.flatten_cons, List.length_append] at hlen
  exact ⟨List.length_pos_of_ne_nil (hne c List.mem_cons_self), by omega,
    fun x hx => hne x (List.mem_cons_of_mem c hx), by omega⟩

/-- One payload call answered with a chunk: its bytes go behind those received before, and are counted (R179). -/
theorem State.Paying.chunk {s : State} {m₀ : Memory} {stored : List Byte} (hs : s.Paying m₀ stored) (hask : s.CanAsk 1)
    {c : List Byte} {more : List Answer} (hans : s.xportAnswers = Answer.okBytes c :: more) (hpos : 1 ≤ c.length)
    (hle : s.eng.got.toNat + c.length ≤ s.eng.v.toNat) :
    ∃ t, Exchanges s [(.read, BitVec.ofNat 32 (s.eng.v.toNat - s.eng.got.toNat), [])] [Answer.okBytes c] t ∧
      t.Paying m₀ (stored ++ c) ∧ t.regs = { s.regs with xferCount := t.regs.xferCount } ∧ t.eng.v = s.eng.v ∧
      t.eng.got.toNat = s.eng.got.toNat + c.length := by
  have hv := s.eng.v.isLt
  have hroom := hs.room
  have hn : (BitVec.ofNat 32 (s.eng.v.toNat - s.eng.got.toNat)).toNat = s.eng.v.toNat - s.eng.got.toNat :=
    Nat.mod_eq_of_lt (by omega)
  have hsum : (s.eng.got + BitVec.ofNat 32 c.length).toNat = s.eng.got.toNat + c.length := by
    rw [BitVec.toNat_add, BitVec.toNat_ofNat]; omega
  obtain ⟨t, hex, hruns, hregs, hbuf, heng, htodo⟩ :=
    hs.runs.exchange_bytes hs.due (plan_paying hs.phase (by omega)) hask hans hpos (by omega)
  have hphase : t.eng.phase = .rpPay := (congrArg Engine.phase heng).trans hs.phase
  have hoff : t.eng.off = s.eng.off := (congrArg Engine.off heng :)
  have hgot : t.eng.got = s.eng.got := (congrArg Engine.got heng :)
  have hvt : t.eng.v = s.eng.v := (congrArg Engine.v heng :)
  rw [dataOps_payload hphase, hoff, hgot, ← hs.length] at htodo
  obtain ⟨hstore, hruns'⟩ := hruns.storeBytes htodo (by rw [hex.cfg, hs.length]; omega)
  obtain ⟨hset, hruns''⟩ := hruns'.perform_plain (rest := []) (List.append_nil _).symm (by simp [Micro.Plain])
  refine ⟨_, hex.trans (hstore.trans hset), ⟨hruns'', rfl, hphase, ?_, rfl, ?_, ?_⟩, ?_, hvt, hsum⟩
  · show t.eng.off.toNat + t.eng.v.toNat ≤ t.cfg.bufSize.toNat
    rw [hoff, hvt, hex.cfg]
    exact hroom
  · show (t.buf.store stored.length c).Begins m₀ (stored ++ c)
    rw [hbuf]
    exact hs.begins.store c
  · show (stored ++ c).length = t.eng.off.toNat + (s.eng.got + BitVec.ofNat 32 c.length).toNat
    rw [List.length_append, hs.length, hoff, hsum, add_assoc]
  · simp only [State.settled, settleRegs, onRegs, hregs]

/-- The payload that is missing, in any non-empty chunks: READ_PACKET stores it behind what BUF begins with, counts it, and
ends with success (R179 to R181). -/
theorem State.Paying.payload {s : State} {m₀ : Memory} {stored : List Byte} (hs : s.Paying m₀ stored)
    {chunks : List (List Byte)} (hask : s.CanAsk chunks.length) {more : List Answer}
    (hans : s.xportAnswers = chunks.map Answer.okBytes ++ more)
    (hsplit : SplitInto (s.eng.v.toNat - s.eng.got.toNat) chunks) (hgot : s.eng.got.toNat ≤ s.eng.v.toNat) :
    ∃ t, Exchanges s (chunkCalls (s.eng.v.toNat - s.eng.got.toNat) chunks) (chunks.map Answer.okBytes) t ∧
      t.regs = { s.regs with status := .success, xferCount := s.eng.v.setWidth 32 } ∧ t.eng.phase = .idle ∧
      t.buf.Begins m₀ (stored ++ chunks.flatten) := by
  induction chunks generalizing s stored with
  | nil =>
    have hv := s.eng.v.isLt
    have hmissing : 0 = s.eng.v.toNat - s.eng.got.toNat := hsplit.2
    have hpaid : s.eng.got.toNat = s.eng.v.toNat := by omega
    have hcount : s.regs.xferCount = s.eng.v.setWidth 32 := by
      rw [hs.counted]
      apply BitVec.eq_of_toNat_eq
      rw [BitVec.toNat_setWidth]; omega
    refine ⟨_, hs.runs.complete hs.due (plan_paid hs.phase hpaid), ?_, rfl, by simpa using hs.begins⟩
    rw [← hcount]
    rfl
  | cons c cs ih =>
    obtain ⟨hpos, hle, hrest⟩ := hsplit.of_cons
    obtain ⟨t, hex, ht, hregs, hv, hgotT⟩ :=
      hs.chunk (hask.mono (Nat.le_add_left 1 _)) hans hpos (by omega)
    have hmissing : t.eng.v.toNat - t.eng.got.toNat = s.eng.v.toNat - s.eng.got.toNat - c.length := by
      rw [hv, hgotT]; omega
    obtain ⟨u, hex', hregs', hidle, hbuf⟩ := ih ht (hex.canAsk (by rwa [add_comm])) (hex.answers_left hans)
      (by rwa [hmissing]) (by rw [hv, hgotT]; omega)
    rw [hmissing] at hex'
    exact ⟨u, hex.trans hex', by rw [hregs', hregs, hv], hidle, by simpa using hbuf⟩

/-- Step 4 of READ_PACKET with a payload that fits, an empty one included (R176 to R178). -/
theorem State.Runs.payload_due {s : State} (hs : s.Runs) {m₀ : Memory} {stored : List Byte} {capL : Word}
    (hd : s.todo = payloadOps capL stored.length s.eng.v) (hbuf : s.buf.Begins m₀ stored)
    (hoff : s.eng.off.toNat = stored.length) (hcap : stored.length + s.eng.v.toNat ≤ capL.toNat)
    (hfit : capL.toNat ≤ s.cfg.bufSize.toNat) (hgot : s.eng.got = 0) (hcount : s.regs.xferCount = 0)
    {chunks : List (List Byte)} (hsplit : SplitInto s.eng.v.toNat chunks) (hask : s.CanAsk chunks.length)
    {more : List Answer} (hans : s.xportAnswers = chunks.map Answer.okBytes ++ more) :
    ∃ t, Exchanges s (chunkCalls s.eng.v.toNat chunks) (chunks.map Answer.okBytes) t ∧
      t.regs = { s.regs with status := .success, xferCount := s.eng.v.setWidth 32 } ∧ t.eng.phase = .idle ∧
      t.buf.Begins m₀ (stored ++ chunks.flatten) := by
  by_cases hv : s.eng.v = 0
  · have hv0 : s.eng.v.toNat = 0 := by rw [hv]; rfl
    obtain rfl : chunks = [] := SplitInto.eq_nil (hv0 ▸ hsplit)
    rw [payloadOps, if_pos hv] at hd
    refine ⟨_, hs.perform_finish hd, ?_, rfl, by simpa using hbuf⟩
    rw [hv, show (0 : RemLen).setWidth 32 = 0 from rfl, ← hcount]
    rfl
  · rw [payloadOps, if_neg hv, if_neg (by omega)] at hd
    obtain ⟨hset, hruns⟩ := hs.perform_plain (rest := []) (hd.trans (List.append_nil _).symm) (by simp [Micro.Plain])
    have hgot0 : s.eng.got.toNat = 0 := by rw [hgot]; rfl
    have hmissing : s.eng.v.toNat - s.eng.got.toNat = s.eng.v.toNat := by omega
    have hpay : State.Paying (s.settled [.setPhase .rpPay] []) m₀ stored :=
      ⟨hruns, rfl, rfl, le_trans (by rw [← hoff] at hcap; exact hcap) hfit, hcount.trans hgot.symm, hbuf,
        (by omega : stored.length = s.eng.off.toNat + s.eng.got.toNat)⟩
    obtain ⟨t, hex, hregs, hidle, hbuf'⟩ := hpay.payload hask hans (hmissing.symm ▸ hsplit)
      (by omega : s.eng.got.toNat ≤ s.eng.v.toNat)
    refine ⟨t, ?_, hregs, hidle, hbuf'⟩
    rw [← hmissing]
    exact hset.trans hex

/-- The end of step 3 when the encoded length fits: its bytes are due, then step 4 (R174, R175). -/
theorem storeOps_of_fits {capL : Word} {v : RemLen} (h : 1 + encLen v ≤ capL.toNat) :
    storeOps capL (varEncode v) v = memWriteOps 1 (varEncode v) ++ payloadOps capL (1 + encLen v) v :=
  if_neg (not_lt.2 h)

/-! ### The whole command -/

/-- A command issued in s that makes transport calls is under way in t, under the deadline s supplies (R167). -/
structure IssuedFrom (s t : State) : Prop where
  outside : SameOutside s t
  hasL : t.eng.hasL = s.regs.hasDeadline
  tokL : t.eng.tokL = s.regs.dlToken

/-- The DeadlineSource's answers at the issue are those the command can ask for. -/
theorem IssuedFrom.canAsk {s t : State} (h : IssuedFrom s t) {n : Nat} (hs : s.answersDeadlines n) : t.CanAsk n := by
  obtain ⟨-, -, -, -, hdeadline, -⟩ := h.outside
  intro hl
  rw [hdeadline]
  exact hs (h.hasL ▸ hl)

/-- A run of an issued command is told in terms of the state it was issued in. -/
theorem Exchanges.of_issue {s t u : State} {cs : List Call} {as : List Answer} (h : Exchanges t cs as u)
    (hissue : IssuedFrom s t) : u.deadlineAnswers = s.deadlinesAfter cs.length ∧ u.log = s.log ++ s.calls cs := by
  obtain ⟨-, -, -, -, hdeadline, hlog⟩ := hissue.outside
  constructor
  · rw [h.deadlineAnswers, hdeadline, hissue.hasL, State.deadlinesAfter]
  · rw [h.log, hlog, hdeadline, Engine.deadline, hissue.hasL, hissue.tokL, State.calls, State.deadline]

/-- READ_PACKET's registers at its issue (R170). -/
def Regs.readIssued (r : Regs) : Regs :=
  { r with
    status := .running
    hdr := ⟨0, 0, 0⟩
    lenValue := 0
    lenInfo := ⟨0, 0, 0⟩
    encBytes := 0
    xferCount := 0
    xportCode := 0 }

/-- The issue of READ_PACKET with a capacity between 1 and BUF_SIZE: it runs, and its first call is next (R170, R171). -/
theorem readPacket_issued {s : State} (hs : s.Ready) (hcap : 1 ≤ s.regs.cap.toNat)
    (hfit : s.regs.cap.toNat ≤ s.cfg.bufSize.toNat) :
    ∃ t, exec .readPacket s = .next t ∧ IssuedFrom s t ∧ t.Runs ∧ t.todo = [] ∧ t.regs = s.regs.readIssued ∧
      t.eng = { issuedEngine .readPacket s with
        phase := .rpHdr, capL := s.regs.cap, hasL := s.regs.hasDeadline, tokL := s.regs.dlToken } := by
  obtain ⟨hinv, hb, hturns⟩ := hs
  obtain ⟨-, hw, -⟩ := idle_of_not_busy hinv hb
  have hops : capOps s.regs.cap s.cfg.bufSize = [] := by
    have hle : ¬ s.regs.cap > s.cfg.bufSize := by rw [gt_iff_lt, BitVec.lt_def]; omega
    have hne : s.regs.cap ≠ 0 := fun h => by rw [h] at hcap; exact absurd hcap (by decide)
    rw [capOps, if_neg hle, if_neg hne]
  exact ⟨_, rfl, ⟨⟨rfl, fun _ => rfl, rfl, rfl, rfl, rfl⟩, rfl, rfl⟩, ⟨hturns, nofun, hw⟩, hops, rfl, rfl⟩

/-- READ_PACKET's registers once the length of a packet is decoded (R172, R173, R175). -/
def Regs.lengthTaken (r : Regs) (h : Byte) (wire : Nat) (v : RemLen) : Regs :=
  { r.readIssued with
    hdr := Hdr.ofByte h
    lenValue := v.setWidth 32
    lenInfo := ⟨BitVec.ofNat 3 wire, BitVec.ofNat 3 (encLen v), BitVec.ofNat 3 (1 + encLen v)⟩
    encBytes := setEncBytes 0 0 (varEncode v) }

/-- READ_PACKET up to the decoded length: the header byte stands in BUF, the registers and the framing fields hold the
length, and the test of the capacity, with what comes after it, is due (R172 to R175). -/
theorem readPacket_takesLength {s : State} {h : Byte} {len : List Byte} {v : RemLen} {more : List Answer}
    (hs : s.Ready) (hfield : wellFormedField len) (hv : v.toNat = groupSum len) (hcap : 1 ≤ s.regs.cap.toNat)
    (hfit : s.regs.cap.toNat ≤ s.cfg.bufSize.toNat) (hans : s.xportAnswers = byteAnswers (h :: len) ++ more)
    (hask : s.answersDeadlines (1 + len.length)) :
    ∃ t₀ t, exec .readPacket s = .next t₀ ∧ IssuedFrom s t₀ ∧
      Exchanges t₀ (List.replicate (1 + len.length) byteCall) (byteAnswers (h :: len)) t ∧ t.Runs ∧
      t.todo = storeOps s.regs.cap (varEncode v) v ∧ t.regs = s.regs.lengthTaken h len.length v ∧
      t.buf.Begins s.buf [h] ∧ t.eng.v = v ∧ t.eng.off.toNat = 1 + encLen v ∧ t.eng.got = 0 := by
  obtain ⟨t₀, hexec, hissue, hruns₀, hd₀, hregs₀, heng₀⟩ := readPacket_issued hs hcap hfit
  obtain ⟨hcfg, hbuf₀, -, hxport, -, -⟩ := hissue.outside
  have hask₀ := hissue.canAsk hask
  have hans₀ : t₀.xportAnswers = byteAnswers [h] ++ (byteAnswers len ++ more) := by
    rw [hxport, hans]; simp [byteAnswers]
  obtain ⟨t₁, hex₁, hruns₁, hd₁, hregs₁, heng₁, hbuf₁⟩ := hruns₀.header hd₀ (by rw [heng₀])
    (hask₀.mono (Nat.le_add_right 1 _)) hans₀ (by rw [hcfg]; omega)
  rw [heng₀] at heng₁
  obtain ⟨t₂, hex₂, hruns₂, hd₂, hregs₂, heng₂, hbuf₂⟩ := hruns₁.lengthField hd₁ (.inr (by rw [heng₁]))
    (by rw [hregs₁, hregs₀]; rfl) (by rw [heng₁]; rfl) (by rw [heng₁]; rfl) hfield hv
    (hex₁.canAsk hask₀) (hex₁.answers_left hans₀)
  have hcapL : decodedOps t₁.eng v = lengthOps s.regs.cap v := by rw [heng₁]; rfl
  obtain ⟨t₃, hex₃, hruns₃, hd₃, hregs₃, heng₃, hbuf₃⟩ := hruns₂.takeLength (hd₂.trans hcapL)
  refine ⟨t₀, t₃, hexec, hissue, ?_, hruns₃, hd₃, ?_, ?_, ?_, ?_, ?_⟩
  · have hall := (hex₁.trans hex₂).trans hex₃
    rw [Nat.add_comm, List.replicate_succ]
    simpa [byteAnswers] using hall
  · have hoffset : 1 + encCount v = BitVec.ofNat 3 (1 + encLen v) := (BitVec.ofNat_add 1 (encLen v)).symm
    rw [hregs₃, hregs₂, hregs₁, hregs₀, hoffset]
    rfl
  · rw [hbuf₃, hbuf₂, hbuf₁]
    intro a
    cases a <;> simp [hbuf₀]
  · rw [heng₃]
  · rw [heng₃]; exact (count_encLen v).2
  · rw [heng₃, heng₂, heng₁]; rfl

/-- Settles O33: up to the decoded length, then the encoded length behind the header byte, then the payload. -/
theorem readPacketStoresThePacket : Obligations.ReadPacketStoresThePacket := by
  intro s h len v chunks more hready hfield hv hne hpay hcap hfit hans hask
  have hans' : s.xportAnswers = byteAnswers (h :: len) ++ (chunks.map Answer.okBytes ++ more) := by
    rw [hans, List.append_assoc]
  obtain ⟨t₀, t₁, hexec, hissue, hex₁, hruns₁, hd₁, hregs₁, hbuf₁, hv₁, hoff₁, hgot₁⟩ :=
    readPacket_takesLength hready hfield hv (by omega) hfit hans' fun hl => (Nat.le_add_right _ _).trans (hask hl)
  rw [storeOps_of_fits (by omega)] at hd₁
  obtain ⟨hcfg₀, -, -, hxport, -, -⟩ := hissue.outside
  have hcfg : t₁.cfg = s.cfg := hex₁.cfg.trans hcfg₀
  have hlen : (varEncode v).length = encLen v := rfl
  obtain ⟨hex₂, hruns₂⟩ := hruns₁.storeBytes hd₁ (by rw [hcfg, hlen]; omega)
  have hleft := (hex₁.trans hex₂).answers_left (hxport.trans (by simpa using hans'))
  have hask₂ := (hex₁.trans hex₂).canAsk (n := chunks.length) (hissue.canAsk (by simpa using hask))
  subst hv₁
  have hlenStored : ([h] ++ varEncode t₁.eng.v).length = 1 + encLen t₁.eng.v := by rw [List.length_append, hlen]; rfl
  obtain ⟨t, hex₃, hregs, hidle, hbuf⟩ := hruns₂.payload_due (by rw [hlenStored]) (hbuf₁.store (varEncode t₁.eng.v))
    (hlenStored ▸ hoff₁) (hlenStored ▸ hcap) (hcfg ▸ hfit) hgot₁ (by rw [hregs₁]; rfl) ⟨hne, hpay⟩ hask₂ hleft
  have hstored : ([h] ++ varEncode t₁.eng.v ++ chunks.flatten).length = 1 + encLen t₁.eng.v + t₁.eng.v.toNat := by
    rw [List.length_append, hlenStored, hpay]
  have hall := (hex₁.trans hex₂).trans hex₃
  obtain ⟨hdeadline, hlog⟩ := hall.of_issue hissue
  obtain ⟨k, hrun⟩ := hall.runs
  refine ⟨t₀, k, t, hexec, hrun, ?_, ?_, hidle, ?_, ?_, ?_⟩
  · rw [hregs, hregs₁]
    simp [Regs.lengthTaken, Regs.readIssued, Hdr.ofByte, hdrType_eq_extractLsb', hdrFlags]
  · intro a
    rw [hbuf a, ← hstored]
    rfl
  · exact hex₃.answers_left hleft
  · simpa [chunkCalls_length] using hdeadline
  · simpa using hlog

end Sys2Proof.Machine
end

section
/-! The encodings: a CMD32 word is its two fields, decoding is said once for each of its three answers, and O1, O2 and O16
follow. -/

namespace Sys2Proof.Machine

/-- A CMD32 word is RSVD above OPCODE (30_encoding.md R80). -/
theorem rsvd_append_opcode (w : Word) : w.extractLsb' 4 28 ++ w.extractLsb' 0 4 = w := by
  rw [BitVec.extractLsb'_append_extractLsb'_eq_extractLsb' (by rfl), BitVec.extractLsb'_eq_self]

/-- The decoder reads every command's word as that command (R81, R82). -/
theorem decode_encode (i : Instr) : decode (encode i) = .ok i := by cases i <;> rfl

/-- The words of the six commands are the only ones that decode to them (R82). -/
theorem decode_eq_ok_iff {w : Word} {i : Instr} : decode w = .ok i ↔ encode i = w := by
  constructor
  · intro h
    rw [← rsvd_append_opcode w]
    unfold decode at h
    split_ifs at h with hrsvd
    rw [not_not.1 hrsvd]
    split at h
    case h_7 => cases h
    all_goals rename_i hop; cases h; rw [hop]; rfl
  · rintro rfl
    exact decode_encode i

/-- The commands' words are 1 to 6 (R82, R86). -/
theorem exists_encode_eq_iff {w : Word} : (∃ i : Instr, encode i = w) ↔ 1 ≤ w.toNat ∧ w.toNat ≤ 6 := by
  constructor
  · rintro ⟨i, rfl⟩
    cases i <;> decide
  · rintro ⟨h1, h6⟩
    have hw : BitVec.ofNat 32 w.toNat = w := by simp
    generalize w.toNat = n at h1 h6 hw
    subst hw
    interval_cases n
    exacts [⟨.lenDecode, rfl⟩, ⟨.lenEncode, rfl⟩, ⟨.hdrUnpack, rfl⟩, ⟨.hdrPack, rfl⟩, ⟨.readPacket, rfl⟩,
      ⟨.sendPacket, rfl⟩]

/-- RSVD is what is left of a word above its four opcode bits. -/
theorem rsvd_ne_zero_iff {w : Word} : w.extractLsb' 4 28 ≠ 0 ↔ 16 ≤ w.toNat := by
  have hval : (w.extractLsb' 4 28).toNat = w.toNat / 16 := by
    rw [BitVec.extractLsb'_toNat, Nat.shiftRight_eq_div_pow]
    omega
  simp only [ne_eq, ← BitVec.toNat_inj, hval]
  show ¬ w.toNat / 16 = 0 ↔ _
  omega

/-- Bits [31:4] are tested before the opcode is looked at (R85). -/
theorem decode_eq_reservedBits_iff {w : Word} : decode w = .error .reservedBits ↔ 16 ≤ w.toNat := by
  rw [← rsvd_ne_zero_iff]
  unfold decode
  split_ifs with hrsvd
  · exact iff_of_true rfl hrsvd
  · refine iff_of_false ?_ hrsvd
    split <;> simp

/-- A word that is no command and has RSVD 0 has a reserved opcode: decoding is total (R86). -/
theorem decode_eq_reservedOpcode_iff {w : Word} :
    decode w = .error .reservedOpcode ↔ w.toNat = 0 ∨ 7 ≤ w.toNat ∧ w.toNat ≤ 15 := by
  have hok : (∃ i, decode w = .ok i) ↔ 1 ≤ w.toNat ∧ w.toNat ≤ 6 := by
    simpa only [decode_eq_ok_iff] using exists_encode_eq_iff
  have hbits := decode_eq_reservedBits_iff (w := w)
  cases hdec : decode w with
  | ok i =>
    have := hok.1 ⟨i, hdec⟩
    simp only [reduceCtorEq, false_iff]
    omega
  | error e =>
    have hno : ¬ (1 ≤ w.toNat ∧ w.toNat ≤ 6) := fun h => by simpa [hdec] using hok.2 h
    cases e with
    | reservedBits =>
      have := hbits.1 hdec
      simp only [Except.error.injEq, reduceCtorEq, false_iff]
      omega
    | reservedOpcode =>
      have : ¬ 16 ≤ w.toNat := fun h => by simpa [hdec] using hbits.2 h
      simp only [true_iff]
      omega

/-- Settles O1: the table's words are the commands' own, and the others stand in the ranges of the two reasons. -/
theorem decodeOfTheTableWords : Obligations.DecodeOfTheTableWords :=
  ⟨decode_encode .lenDecode, decode_encode .lenEncode, decode_encode .hdrUnpack, decode_encode .hdrPack,
    decode_encode .readPacket, decode_encode .sendPacket,
    decode_eq_reservedOpcode_iff.2 (by decide), decode_eq_reservedOpcode_iff.2 (by decide),
    decode_eq_reservedOpcode_iff.2 (by decide), decode_eq_reservedBits_iff.2 (by decide),
    decode_eq_reservedBits_iff.2 (by decide)⟩

/-- Settles O2: the three answers of the decoder, each with the words it is given on. -/
theorem decodeTotalAndExact : Obligations.DecodeTotalAndExact := by
  refine ⟨decode_encode, fun w i => decode_eq_ok_iff.1, fun w => ?_, fun w => decode_eq_reservedBits_iff,
    fun w => decode_eq_reservedOpcode_iff⟩
  simpa only [decode_eq_ok_iff] using exists_encode_eq_iff

/-- Settles O16: the decoder's law on a well-formed field, at the field's first byte. -/
theorem decodedValueIsTheGroupSum : Obligations.DecodedValueIsTheGroupSum :=
  fun _ more h => varDecode_wellFormed more h

end Sys2Proof.Machine
end

section
/-! The Host's CMD write while no command runs, as an equation of `step`: a command's word (O3) and an illegal word (O4). -/

namespace Sys2Proof.Machine

/-- The Host's turn to write CMD while no command runs (30_encoding.md R81). -/
theorem step_cmdWrite {s : State} {w : Word} {rest : List Turn} (hb : s.regs.status.busy = false)
    (ht : s.turns = .host (cmdAccess w) :: rest) : step s = cmdWrite w { s with turns := rest } := by
  rw [step_regWrite rfl ht]
  simp [regWrite, hb, Reg.ofOffset]

/-- A command's word is the command's meaning (R81). -/
theorem cmdWrite_of_ok {w : Word} {i : Instr} (s : State) (h : decode w = .ok i) : cmdWrite w s = exec i s := by
  simp [cmdWrite, h]

/-- A word that is no command ends with ILLEGAL_COMMAND, whatever makes it one (R85). -/
theorem cmdWrite_of_no_command {w : Word} (s : State) (h : ∀ i, decode w ≠ .ok i) :
    cmdWrite w s = .next (finish .illegalCommand s) := by
  cases hdec : decode w with
  | ok i => exact absurd hdec (h i)
  | error e => simp [cmdWrite, hdec]

/-- With RSVD set or a reserved opcode a word is no command (R85). -/
theorem decode_ne_ok_of_illegal {w : Word}
    (h : w.extractLsb' 4 28 ≠ 0 ∨ w.extractLsb' 0 4 = 0 ∨ 7 ≤ (w.extractLsb' 0 4).toNat) (i : Instr) :
    decode w ≠ .ok i := by
  intro hok
  obtain rfl := decode_eq_ok_iff.1 hok
  revert h
  cases i <;> decide

/-- With no command running there is nothing for `finish` to end: it writes STATUS and nothing else (log 17). -/
theorem finish_of_idle {s : State} (c : ErrCode) (hp : s.eng.phase = .idle) (hw : s.eng.wait = .none)
    (hd : s.todo = []) : finish c s = { s with regs := { s.regs with status := Status.finished c } } := by
  unfold finish
  rw [← hp, ← hw, ← hd]

/-- A state in which no command runs is its own quiesced state (log 7). -/
theorem quiesce_of_idle {s : State} (hb : s.regs.status.busy = false) (hp : s.eng.phase = .idle)
    (hw : s.eng.wait = .none) (hd : s.todo = []) : quiesce s = s := by
  unfold quiesce
  rw [← hb, ← hp, ← hw, ← hd]

/-- What STATUS reads as after an illegal word (10_state.md R25, R85). -/
theorem illegalCommand_toWord : (Status.error .illegalCommand).toWord = 0x00000606 := by decide

/-- Settles O3: the CMD write's turn, which `withFetchWord` makes the next one. -/
theorem stepIssuesTheDecodedCommand : Obligations.StepIssuesTheDecodedCommand := by
  refine ⟨fun s w i rest ht hb hdec => (step_cmdWrite hb ht).trans (cmdWrite_of_ok _ hdec), fun s i => ?_,
    fun s hready => ?_⟩
  · have hword : BitVec.ofNat 32 ((encode i).toNat % 2 ^ 32) = encode i := by
      rw [Nat.mod_eq_of_lt (encode i).isLt, BitVec.ofNat_toNat, BitVec.setWidth_eq]
    have hturn : (s.withFetchWord 32 (encode i).toNat).turns = .host (cmdAccess (encode i)) :: s.turns :=
      congrArg (fun w => Turn.host (cmdAccess w) :: s.turns) hword
    exact (step_cmdWrite rfl hturn).trans (cmdWrite_of_ok _ (decode_encode i))
  · obtain ⟨hinv, hb, -⟩ := hready
    obtain ⟨hp, hw, hd⟩ := idle_of_not_busy hinv hb
    exact quiesce_of_idle hb hp hw hd

/-- Settles O4: the CMD write's turn is `finish`, and under the invariant that writes STATUS alone. -/
theorem illegalWordCompletesAtOnce : Obligations.IllegalWordCompletesAtOnce := by
  intro s w rest hinv ht hb hillegal
  obtain ⟨hp, hw, hd⟩ := idle_of_not_busy hinv hb
  refine ⟨_, ?_, rfl, (Regs.readAt_offset _ .status).trans illegalCommand_toWord⟩
  calc step s = cmdWrite w { s with turns := rest } := step_cmdWrite hb ht
    _ = .next (finish .illegalCommand { s with turns := rest }) :=
      cmdWrite_of_no_command _ (decode_ne_ok_of_illegal hillegal)
    _ = _ := congrArg _ (finish_of_idle (s := { s with turns := rest }) .illegalCommand hp hw hd)

end Sys2Proof.Machine
end

section
/-! Who writes BUF (O49): the Host's BUF write while no command runs, and the writes of a running command's rule. -/

namespace Sys2Proof.Machine

/-! ### The Host -/

/-- No command touches BUF at its issue. -/
theorem exec_buf {i : Instr} {s t : State} (h : exec i s = .next t) : t.buf = s.buf := by
  cases i with
  | lenEncode =>
    simp only [exec, execLenEncode] at h
    split_ifs at h <;> cases h <;> rfl
  | _ => cases h; rfl

/-- Nor does a CMD write, whatever its word (30_encoding.md R85). -/
theorem cmdWrite_buf {w : Word} {s t : State} (h : cmdWrite w s = .next t) : t.buf = s.buf := by
  unfold cmdWrite at h
  split at h
  case h_1 => exact exec_buf h
  case h_2 => cases h; rfl

/-- Nor does any other register write. -/
theorem regWrite_buf {off : BitVec 8} {w : Word} {s t : State} (h : regWrite off w s = .next t) : t.buf = s.buf := by
  unfold regWrite at h
  split_ifs at h
  · cases h; rfl
  · split at h
    case h_1 => exact cmdWrite_buf h
    case h_2 | h_3 => cases h; rfl

/-- Reading a BUF byte leaves it. -/
theorem bufRead_buf {a : Nat} {s t : State} (h : bufRead a s = .next t) : t.buf = s.buf := by
  unfold bufRead at h
  split_ifs at h
  · split at h
    case h_1 => cases h; rfl
    case h_2 => cases h
  · cases h; rfl

/-- A BUF write changes the byte it names, to the byte written, and no other (20_memory.md R61, R65). -/
theorem bufWrite_read {x : Nat} {b : Byte} {s t : State} (h : bufWrite x b s = .next t) (a : Nat) :
    t.buf.read a = s.buf.read a ∨ (a = x ∧ t.buf.read a = some b) := by
  unfold bufWrite at h
  split_ifs at h
  · cases h
    by_cases ha : a = x
    · exact .inr ⟨ha, by simp [ha]⟩
    · exact .inl (by simp [ha])
  · cases h; exact .inl rfl

/-- Of the Host's accesses only a BUF write changes BUF, and only while no command runs. -/
theorem hostStep_buf {access : HostAccess} {s t : State} (h : hostStep access s = .next t) :
    t.buf = s.buf ∨ (s.regs.status.busy = false ∧ ∃ x b, access = .bufWrite x b ∧ bufWrite x b s = .next t) := by
  obtain ⟨off, -, -, rfl⟩ | ⟨off, w, -, -, hw⟩ | ⟨-, x, -, hr⟩ | hwrite := hostStep_cases h
  · exact .inl rfl
  · exact .inl (regWrite_buf hw)
  · exact .inl (bufRead_buf hr)
  · exact .inr hwrite

/-! ### One step -/

/-- A step leaves BUF, or performs a write of the running command's rule, or is the Host's BUF write with no command
running. -/
theorem step_buf {s t : State} (h : step s = .next t) :
    t.buf = s.buf ∨ (∃ op ∈ s.todo, t.buf = onBuf op s.buf) ∨
      ∃ x b rest, s.turns = .host (.bufWrite x b) :: rest ∧ s.regs.status.busy = false ∧
        bufWrite x b { s with turns := rest } = .next t := by
  cases hturns : s.turns with
  | nil =>
    rw [step_default hturns, defaultStep] at h
    split at h
    case h_1 => exact (engineStep_keeps h).2.imp_right .inl
    case h_2 => exact .inl (deadlineStep_keeps h).2
    case h_3 => exact .inl (transportStep_keeps h).2
  | cons turn rest =>
    rw [step_turn hturns] at h
    cases turn with
    | host access =>
      obtain hsame | ⟨hb, x, b, rfl, hwrite⟩ := hostStep_buf h
      · exact .inl hsame
      · exact .inr (.inr ⟨x, b, rest, rfl, hb, hwrite⟩)
    | engine => exact (engineStep_keeps (s := { s with turns := rest }) h).2.imp_right .inl
    | transport => exact .inl (transportStep_keeps h).2
    | deadlineSource => exact .inl (deadlineStep_keeps h).2
    | reset => cases h; exact .inl rfl

/-- A legal write of a rule changes BUF only while READ_PACKET runs (20_memory.md R61). -/
theorem onBuf_of_not_reading {s : State} {op : Micro} (hop : op.legal s = true) (hr : s.eng.phase.reading ≠ true)
    (m : Memory) : onBuf op m = m := by
  cases op with
  | memWrite x b =>
    simp only [Micro.legal, Bool.and_eq_true] at hop
    exact absurd hop.1.1 hr
  | _ => rfl

/-- Settles O49: of the three things a step can do to BUF, the write of a rule is READ_PACKET's by the invariant. -/
theorem onlyHostAndReadPacketWriteBuf : Obligations.OnlyHostAndReadPacketWriteBuf := by
  intro s t a h hstep hne
  obtain hsame | ⟨op, hop, hbuf⟩ | ⟨x, b, rest, hturns, hb, hwrite⟩ := step_buf hstep
  · exact absurd (by rw [hsame]) hne
  · refine .inr (by_contra fun hr => hne ?_)
    rw [hbuf, onBuf_of_not_reading (h.legal_of_mem hop) hr]
  · obtain hsame | ⟨rfl, hread⟩ := bufWrite_read hwrite a
    · exact absurd hsame hne
    · exact .inl ⟨b, rest, hturns, hb, hread⟩

end Sys2Proof.Machine
end

section
/-! The encoder (O14, O15, O18): its loop a byte at a time, the field it emits, the value of that field and its length;
and the decoder within four bytes (O17). -/

namespace Sys2Proof.Machine

/-! ### The two parts of a byte -/

/-- A byte is its group and, above it, its continuation bit (30_encoding.md R88). -/
theorem toNat_eq_group_add (b : Byte) : b.toNat = (group b).toNat + 128 * (contBit b).toNat := by
  have hb := b.isLt
  have hgroup : (group b).toNat = b.toNat % 128 := by simp [group]
  have hcont : contBit b = decide (128 ≤ b.toNat) := by
    rw [← BitVec.msb_eq_decide b]; rfl
  rw [hgroup, hcont]
  by_cases h : 128 ≤ b.toNat <;> simp [h] <;> omega

/-- A byte that carries a group alone does not continue. -/
@[simp] theorem contBit_setWidth (g : BitVec 7) : contBit (g.setWidth 8) = false := by
  simp [contBit]

/-- With bit 7 set it does. -/
@[simp] theorem contBit_setWidth_or (g : BitVec 7) : contBit (g.setWidth 8 ||| 0x80) = true := by
  simp [contBit]

@[simp] theorem group_setWidth (g : BitVec 7) : group (g.setWidth 8) = g := by
  rw [group, BitVec.extractLsb'_setWidth_of_le (by norm_num), BitVec.extractLsb'_eq_self]

/-- Bit 7 is above the group. -/
@[simp] theorem group_setWidth_or (g : BitVec 7) : group (g.setWidth 8 ||| 0x80) = g := by
  have hbit : (0x80 : Byte).extractLsb' 0 7 = 0 := by decide
  rw [group, BitVec.extractLsb'_or, hbit]
  exact BitVec.or_zero.trans (group_setWidth g)

/-! ### Fields and their sums -/

/-- n groups hold a number below 128^n (40_varlen_codec.md R117). -/
theorem groupSum_lt (bs : List Byte) : groupSum bs < 128 ^ bs.length := by
  induction bs with
  | nil => simp [groupSum]
  | cons b bs ih =>
    have hb := (group b).isLt
    rw [groupSum, List.length_cons, pow_succ]
    omega

/-- Fields of one length with the same continuation bits and the same sum are the same bytes. -/
theorem eq_of_groupSum_eq {bs cs : List Byte} (hcont : bs.map contBit = cs.map contBit)
    (hsum : groupSum bs = groupSum cs) : bs = cs := by
  induction bs generalizing cs with
  | nil => exact (List.map_eq_nil_iff.1 hcont.symm).symm
  | cons b bs ih =>
    obtain ⟨c, cs, rfl, hbit, hbits⟩ := List.map_eq_cons_iff.1 hcont.symm
    have hb := (group b).isLt
    have hc := (group c).isLt
    simp only [groupSum] at hsum
    have hbyte : b.toNat = c.toNat := by
      rw [toNat_eq_group_add b, toNat_eq_group_add c, hbit]
      omega
    rw [BitVec.eq_of_toNat_eq hbyte, ih hbits.symm (by omega)]

/-- The continuation bits of a well-formed field are told by its length (R88). -/
theorem wellFormedField.map_contBit {bs : List Byte} (h : wellFormedField bs) :
    bs.map contBit = List.replicate (bs.length - 1) true ++ [false] := by
  obtain ⟨front, last, rfl, -, hfront, hlast⟩ := h
  have hmap : front.map contBit = List.replicate front.length true := by
    rw [← List.map_const']
    exact List.map_congr_left hfront
  simp [hmap, hlast]

/-! ### The encoder's loop -/

/-- A value of one group ends the loop (R114). -/
theorem varEncodeLoop_of_lt (fuel : Nat) {x : RemLen} (h : x.toNat < 128) :
    varEncodeLoop (fuel + 1) x = [(x.extractLsb' 0 7).setWidth 8] := by
  have hx : x >>> 7 = 0 := BitVec.eq_of_toNat_eq (by simp [Nat.shiftRight_eq_div_pow]; omega)
  rw [varEncodeLoop, hx, if_pos rfl]

/-- A larger value emits its lowest group and goes on with the others (R114). -/
theorem varEncodeLoop_of_ge (fuel : Nat) {x : RemLen} (h : 128 ≤ x.toNat) :
    varEncodeLoop (fuel + 1) x = ((x.extractLsb' 0 7).setWidth 8 ||| 0x80) :: varEncodeLoop fuel (x >>> 7) := by
  have hx : x >>> 7 ≠ 0 := fun hzero => by
    have := congrArg BitVec.toNat hzero
    simp [Nat.shiftRight_eq_div_pow] at this
    omega
  rw [varEncodeLoop, if_neg hx]

/-- The value without its lowest group. -/
theorem toNat_shiftRight_group (x : RemLen) : (x >>> 7).toNat = x.toNat / 128 := by
  rw [BitVec.toNat_ushiftRight, Nat.shiftRight_eq_div_pow]

/-- The loop's rounds suffice for what it is left with after the first. -/
theorem toNat_shiftRight_group_lt {fuel : Nat} {x : RemLen} (h : x.toNat < 128 ^ (fuel + 1)) :
    (x >>> 7).toNat < 128 ^ fuel := by
  rw [pow_succ] at h
  rw [toNat_shiftRight_group]
  omega

/-- The loop emits bytes that continue, and then one that does not. -/
theorem varEncodeLoop_field {fuel : Nat} {x : RemLen} (hx : x.toNat < 128 ^ (fuel + 1)) :
    ∃ front last, varEncodeLoop (fuel + 1) x = front ++ [last] ∧ front.length ≤ fuel ∧ allContinue front ∧
      contBit last = false := by
  induction fuel generalizing x with
  | zero => exact ⟨[], _, varEncodeLoop_of_lt 0 hx, le_rfl, nofun, contBit_setWidth _⟩
  | succ fuel ih =>
    obtain hlt | hge := lt_or_ge x.toNat 128
    · exact ⟨[], _, varEncodeLoop_of_lt _ hlt, Nat.zero_le _, nofun, contBit_setWidth _⟩
    · obtain ⟨front, last, hloop, hlen, hfront, hlast⟩ := ih (toNat_shiftRight_group_lt hx)
      refine ⟨_ :: front, last, by rw [varEncodeLoop_of_ge _ hge, hloop]; rfl, Nat.succ_le_succ hlen, ?_, hlast⟩
      exact List.forall_mem_cons.2 ⟨contBit_setWidth_or _, hfront⟩

/-- The groups the loop emits are those of its value. -/
theorem groupSum_varEncodeLoop {fuel : Nat} {x : RemLen} (hx : x.toNat < 128 ^ (fuel + 1)) :
    groupSum (varEncodeLoop (fuel + 1) x) = x.toNat := by
  have hlow : (x.extractLsb' 0 7).toNat = x.toNat % 128 := by simp
  induction fuel generalizing x with
  | zero =>
    rw [varEncodeLoop_of_lt 0 hx, groupSum, group_setWidth, hlow, groupSum]
    omega
  | succ fuel ih =>
    obtain hlt | hge := lt_or_ge x.toNat 128
    · rw [varEncodeLoop_of_lt _ hlt, groupSum, group_setWidth, hlow, groupSum]
      omega
    · rw [varEncodeLoop_of_ge _ hge, groupSum, group_setWidth_or, ih (toNat_shiftRight_group_lt hx) (by simp), hlow,
        toNat_shiftRight_group]
      omega

/-- A value of one group needs one byte, so any number of bytes from one upwards suffices. -/
theorem length_varEncodeLoop_le_iff_of_lt (fuel n : Nat) {x : RemLen} (h : x.toNat < 128) :
    (varEncodeLoop (fuel + 1) x).length ≤ n + 1 ↔ x.toNat < 128 ^ (n + 1) :=
  iff_of_true (by simp [varEncodeLoop_of_lt fuel h]) (h.trans_le (Nat.le_self_pow n.succ_ne_zero 128))

/-- The loop emits a byte for each group up to the highest that is not 0: n + 1 bytes suffice exactly for a value below
128^(n+1). -/
theorem length_varEncodeLoop_le_iff {fuel : Nat} (n : Nat) {x : RemLen} (hx : x.toNat < 128 ^ (fuel + 1)) :
    (varEncodeLoop (fuel + 1) x).length ≤ n + 1 ↔ x.toNat < 128 ^ (n + 1) := by
  induction fuel generalizing x n with
  | zero => exact length_varEncodeLoop_le_iff_of_lt 0 n hx
  | succ fuel ih =>
    obtain hlt | hge := lt_or_ge x.toNat 128
    · exact length_varEncodeLoop_le_iff_of_lt _ n hlt
    have hrest := toNat_shiftRight_group_lt hx
    rw [varEncodeLoop_of_ge _ hge, List.length_cons, Nat.succ_le_succ_iff]
    cases n with
    | zero =>
      obtain ⟨front, last, hloop, -⟩ := varEncodeLoop_field hrest
      simp [hloop, hge]
    | succ n => exact (ih n hrest).trans (by rw [toNat_shiftRight_group, pow_succ 128 (n + 1)]; omega)

/-! ### The encoder -/

/-- Every value has at most four groups. -/
theorem remLen_toNat_lt (x : RemLen) : x.toNat < 128 ^ (3 + 1) := x.isLt

/-- The encoder emits a well-formed field (R114). -/
theorem wellFormedField_varEncode (x : RemLen) : wellFormedField (varEncode x) :=
  varEncodeLoop_field (remLen_toNat_lt x)

/-- The field of x has the value x. -/
@[simp] theorem groupSum_varEncode (x : RemLen) : groupSum (varEncode x) = x.toNat :=
  groupSum_varEncodeLoop (remLen_toNat_lt x)

/-- n + 1 bytes suffice exactly for the values below 128^(n+1) (R115). -/
theorem encLen_le_iff (n : Nat) (x : RemLen) : encLen x ≤ n + 1 ↔ x.toNat < 128 ^ (n + 1) :=
  length_varEncodeLoop_le_iff n (remLen_toNat_lt x)

/-! ### The decoder within four bytes -/

/-- A fourth byte that continues is malformed (R110). -/
theorem varDecStep_of_fourth (acc : RemLen) {i : Count} {b : Byte} (hb : contBit b = true) (hi : i.toNat = 3) :
    varDecStep acc i b = .malformed := by
  have hfour : i + 1 = 4 := BitVec.eq_of_toNat_eq (by rw [count_succ_toNat hi.le, hi]; rfl)
  simpa [varDecStep, hb] using hfour

/-- Bytes that all continue run the decoder to its fourth, whatever follows (R110, R111). -/
theorem varDecode_of_continues {bs : List Byte} (more : List Byte) {acc : RemLen} {i : Count} (hi : i.toNat ≤ 3)
    (hbs : allContinue bs) (hlen : i.toNat + bs.length = 4) : varDecode acc i (bs ++ more) = some .malformed := by
  induction bs generalizing acc i with
  | nil => exact absurd hlen (by simp; omega)
  | cons b bs ih =>
    obtain ⟨hb, hrest⟩ := List.forall_mem_cons.1 hbs
    have hsucc := count_succ_toNat hi
    rw [List.length_cons] at hlen
    rw [List.cons_append, varDecode]
    obtain hlt | hthree := Nat.lt_or_eq_of_le hi
    · rw [varDecStep_of_continues acc hb hlt]
      exact ih (by omega) hrest (by omega)
    · rw [varDecStep_of_fourth acc hb hthree]

/-- Bytes that do not all continue begin with a field that ends. -/
theorem exists_field_of_not_allContinue {bs : List Byte} (h : ¬ allContinue bs) :
    ∃ front last more, bs = front ++ last :: more ∧ allContinue front ∧ contBit last = false := by
  induction bs with
  | nil => exact absurd nofun h
  | cons b bs ih =>
    cases hb : contBit b with
    | false => exact ⟨[], b, bs, rfl, nofun, hb⟩
    | true =>
      obtain ⟨front, last, more, rfl, hfront, hlast⟩ := ih fun hrest => h (List.forall_mem_cons.2 ⟨hb, hrest⟩)
      exact ⟨b :: front, last, more, rfl, List.forall_mem_cons.2 ⟨hb, hfront⟩, hlast⟩

/-- Four bytes that do not all continue begin with a well-formed field. -/
theorem exists_wellFormedField_of_not_allContinue {bs : List Byte} (hlen : bs.length = 4) (h : ¬ allContinue bs) :
    ∃ field more, bs = field ++ more ∧ wellFormedField field := by
  obtain ⟨front, last, more, rfl, hfront, hlast⟩ := exists_field_of_not_allContinue h
  rw [List.length_append, List.length_cons] at hlen
  exact ⟨front ++ [last], more, by simp, front, last, rfl, by omega, hfront, hlast⟩

/-- What follows a well-formed field does not matter to the decoder (R110). -/
theorem varDecode_wellFormed_append {field : List Byte} (h : wellFormedField field) (more : List Byte) :
    varDecode 0 0 (field ++ more) = varDecode 0 0 field := by
  obtain ⟨a, n, hdec, ha, hn⟩ := varDecode_wellFormed more h
  obtain ⟨a', n', hdec', ha', hn'⟩ := varDecode_wellFormed [] h
  rw [List.append_nil] at hdec'
  rw [hdec, hdec', BitVec.eq_of_toNat_eq (ha.trans ha'.symm), BitVec.eq_of_toNat_eq (hn.trans hn'.symm)]

/-- A well-formed field holds one to four bytes (R88). -/
theorem wellFormedField.length_bounds {bs : List Byte} (h : wellFormedField bs) : 1 ≤ bs.length ∧ bs.length ≤ 4 := by
  obtain ⟨front, last, rfl, hlen, -⟩ := h
  rw [List.length_append, List.length_singleton]
  omega

/-! ### The statements -/

/-- Settles O14: the decoder's law on a well-formed field, at the field the encoder emits. -/
theorem varintRoundTrip : Obligations.VarintRoundTrip := by
  intro x
  obtain ⟨a, n, hdec, ha, hn⟩ := varDecode_wellFormed [] (wellFormedField_varEncode x)
  obtain rfl : a = x := BitVec.eq_of_toNat_eq (ha.trans (groupSum_varEncode x))
  rw [List.append_nil] at hdec
  rw [hdec, encLen, ← hn, BitVec.ofNat_toNat, BitVec.setWidth_eq]

/-- Settles O15: each band lies between two powers of 128. -/
theorem canonicalLengthBands : Obligations.CanonicalLengthBands := by
  intro x
  have hbounds := encLen_bounds x
  have h1 := encLen_le_iff 0 x
  have h2 := encLen_le_iff 1 x
  have h3 := encLen_le_iff 2 x
  norm_num at h1 h2 h3
  omega

/-- Settles O17: the first four bytes all continue, or they begin with a well-formed field. -/
theorem decoderEndsWithinFourBytes : Obligations.DecoderEndsWithinFourBytes := by
  intro bs hlen
  have hfour : (bs.take 4).length = 4 := List.length_take_of_le hlen
  have hsplit : bs.take 4 ++ bs.drop 4 = bs := List.take_append_drop 4 bs
  by_cases hall : allContinue (bs.take 4)
  · have hmal (more : List Byte) : varDecode 0 0 (bs.take 4 ++ more) = some .malformed :=
      varDecode_of_continues more (by decide) hall (by simpa using hfour)
    have hbs := hmal (bs.drop 4)
    have htake := hmal []
    rw [hsplit] at hbs
    rw [List.append_nil] at htake
    exact ⟨hbs.trans htake.symm, iff_of_true hbs hall, .inl hbs⟩
  · obtain ⟨field, more, htake, hfield⟩ := exists_wellFormedField_of_not_allContinue hfour hall
    obtain ⟨a, n, hdec, -, hn⟩ := varDecode_wellFormed (more ++ bs.drop 4) hfield
    have hbs : bs = field ++ (more ++ bs.drop 4) := by rw [← List.append_assoc, ← htake, hsplit]
    rw [← hbs] at hdec
    refine ⟨?_, iff_of_false (by rw [hdec]; nofun) hall, .inr ⟨a, n, hdec, by rw [hn]; exact hfield.length_bounds⟩⟩
    calc varDecode 0 0 bs = varDecode 0 0 field := by
          rw [← varDecode_wellFormed_append hfield (more ++ bs.drop 4), ← hbs]
      _ = varDecode 0 0 (bs.take 4) := by rw [htake, varDecode_wellFormed_append hfield]

/-- A well-formed field is no shorter than the canonical one of its value (R115, R118). -/
theorem encLen_le_length {bs : List Byte} (h : wellFormedField bs) {x : RemLen} (hx : x.toNat = groupSum bs) :
    encLen x ≤ bs.length := by
  obtain ⟨n, hn⟩ := Nat.exists_eq_add_of_le' h.length_bounds.1
  rw [hn, encLen_le_iff, hx, ← hn]
  exact groupSum_lt bs

/-- A well-formed field as long as the canonical one of its value is that one. -/
theorem eq_varEncode_of_length {bs : List Byte} (h : wellFormedField bs) {x : RemLen} (hx : x.toNat = groupSum bs)
    (hlen : bs.length = encLen x) : bs = varEncode x := by
  refine eq_of_groupSum_eq ?_ ((groupSum_varEncode x).trans hx).symm
  rw [h.map_contBit, (wellFormedField_varEncode x).map_contBit, hlen, encLen]

/-- Settles O18: a field is bounded by its sum, and its bytes are told by its length and its sum. -/
theorem canonicalEncodingIsShortest : Obligations.CanonicalEncodingIsShortest := by
  refine ⟨by decide, wellFormedField_varEncode, fun bs h => ?_⟩
  obtain ⟨x, -, -, hx, -⟩ := varDecode_wellFormed [] h
  exact ⟨x, hx, encLen_le_length h hx, eq_varEncode_of_length h hx⟩

end Sys2Proof.Machine
end

section
/-! LEN_ENCODE for every LEN_VALUE (O22) and the issue of LEN_DECODE (O24). -/

namespace Sys2Proof.Machine

/-! ### ENC_BYTES byte by byte -/

/-- Byte j of ENC_BYTES with byte k replaced (10_state.md R33). -/
theorem extractLsb'_setEncByte (w : Word) {j k : Nat} (b : Byte) (hj : j < 4) (hk : k < 4) :
    (setEncByte w k b).extractLsb' (8 * j) 8 = if j = k then b else w.extractLsb' (8 * j) 8 := by
  have hmask : (0xFF : Word) = (BitVec.allOnes 8).setWidth 32 := by decide
  ext i hi
  have hin : 8 * j + i < 32 := by omega
  simp only [setEncByte, hmask, BitVec.getElem_extractLsb', BitVec.getLsbD_or, BitVec.getLsbD_and, BitVec.getLsbD_not,
    BitVec.getLsbD_shiftLeft, BitVec.getLsbD_setWidth, BitVec.getLsbD_allOnes, hin]
  obtain hlt | rfl | hgt := lt_trichotomy j k
  · simp [hlt.ne, show 8 * j + i < 8 * k by omega]
  · simp [hi, show i < 32 by omega]
  · have hout : ¬ 8 * j + i - 8 * k < 8 := by omega
    simp [hgt.ne', show ¬ 8 * j + i < 8 * k by omega, hout, BitVec.getLsbD_of_ge b _ (not_lt.1 hout)]

/-- Byte j of ENC_BYTES with bytes replaced from k upwards. -/
theorem extractLsb'_setEncBytes (w : Word) {j k : Nat} (bs : List Byte) (hj : j < 4) (hk : k + bs.length ≤ 4) :
    (setEncBytes w k bs).extractLsb' (8 * j) 8 =
      if k ≤ j then bs.getD (j - k) (w.extractLsb' (8 * j) 8) else w.extractLsb' (8 * j) 8 := by
  induction bs generalizing w k with
  | nil => simp [setEncBytes]
  | cons b bs ih =>
    rw [List.length_cons] at hk
    rw [setEncBytes, ih _ (by omega), extractLsb'_setEncByte w b hj (by omega)]
    obtain hlt | rfl | hgt := lt_trichotomy j k
    · rw [if_neg (by omega), if_neg (by omega), if_neg (by omega)]
    · simp
    · rw [if_pos (by omega), if_neg (by omega), if_pos (by omega), show j - k = j - (k + 1) + 1 by omega,
        List.getD_cons_succ]

/-- ENC_BYTES after LEN_ENCODE: byte k is the k-th canonical byte, and 0 beyond (40_varlen_codec.md R125). -/
theorem extractLsb'_setEncBytes_varEncode (x : RemLen) {k : Nat} (hk : k < 4) :
    (setEncBytes 0 0 (varEncode x)).extractLsb' (8 * k) 8 = (varEncode x).getD k 0 := by
  rw [extractLsb'_setEncBytes 0 (varEncode x) hk (by simpa [encLen] using (encLen_bounds x).2)]
  simp

/-! ### The two commands -/

/-- LEN_VALUE is in the encoder's domain exactly up to 2^28-1 (R9, R125). -/
theorem gt_maxRemLen_iff (x : Word) : x > maxRemLen ↔ 268435455 < x.toNat := by
  rw [gt_iff_lt, BitVec.lt_def, maxRemLen]
  rfl

/-- Settles O22: both ends of LEN_ENCODE are equations; the bytes of ENC_BYTES are those of `setEncBytes`. -/
theorem lenEncodeResult : Obligations.LenEncodeResult := by
  refine ⟨by decide, fun s => ?_⟩
  obtain hle | hgt := le_or_gt s.regs.lenValue.toNat 268435455
  · have hexec : ¬ s.regs.lenValue > maxRemLen := fun h => absurd ((gt_maxRemLen_iff _).1 h) (not_lt.2 hle)
    refine ⟨_, encCount (s.regs.lenValue.setWidth 28), setEncBytes 0 0 (varEncode (s.regs.lenValue.setWidth 28)),
      if_neg hexec, ?_, fun _ => ⟨(count_encLen _).1, fun k hk => extractLsb'_setEncBytes_varEncode _ hk⟩,
      fun h => absurd h (not_lt.2 hle), rfl, rfl, rfl, fun _ => rfl, rfl, rfl, rfl, rfl⟩
    rw [if_pos hle]
    rfl
  · refine ⟨_, 0, 0, if_pos ((gt_maxRemLen_iff _).2 hgt), ?_, fun h => absurd hgt (not_lt.2 h), fun _ => ⟨rfl, rfl⟩,
      rfl, rfl, rfl, fun _ => rfl, rfl, rfl, rfl, rfl⟩
    rw [if_neg (not_le.2 hgt)]
    rfl

/-- Settles O24: the issue is one equation, and every field of it can be read off. -/
theorem lenDecodeIssue : Obligations.LenDecodeIssue := fun _ =>
  ⟨_, rfl, rfl, rfl, rfl, rfl, fun _ => rfl, rfl, rfl, rfl, rfl⟩

end Sys2Proof.Machine
end

section
/-! LEN_DECODE as a whole command (O23, O28), and the failure of a length byte in it and in READ_PACKET (O30). -/

namespace Sys2Proof.Machine

/-! ### A read that fails -/

/-- A failed answer writes XPORT_CODE for ERR alone, and ends the command (42_packet_framer.md R163, R166). -/
theorem failOps_eq (a : Answer) (e : ErrCode) :
    failOps a e = (if a.st = .err then [.setXportCode a.code] else []) ++ [.finish e] := by
  unfold failOps
  cases a.st <;> rfl

/-- The failure of a read is the error its result is (R163). -/
theorem readFailure_eq_some {n : Word} {a : Answer} {e : ErrCode} :
    readFailure n a = some e ↔ readResult a n = .error e := by
  unfold readFailure
  cases readResult a n <;> simp

/-- What fails a read is an error (R163, 60_exceptions.md R200). -/
theorem readResult_ne_error_none (a : Answer) (n : Word) : readResult a n ≠ .error .none := by
  unfold readResult
  cases a.st with
  | ok => dsimp only; split_ifs <;> simp
  | _ => simp

/-- STATUS at the end of a command that a failed read ends (10_state.md R26). -/
theorem finished_of_readFailure {n : Word} {a : Answer} {e : ErrCode} (h : readFailure n a = some e) :
    Status.finished e = .error e := by
  have hne : e ≠ .none := by
    rintro rfl
    exact readResult_ne_error_none a n (readFailure_eq_some.1 h)
  simp [Status.finished, Status.error, hne]

/-- A read whose answer fails ends the command with that failure's code; XPORT_CODE is the transport's own code for ERR
and is left else (R163). -/
theorem State.Runs.exchange_fails {s : State} (h : s.Runs) (hd : s.todo = []) {n : Word} {data : List Byte}
    (hplan : plan s = .call .read n data) (hask : s.CanAsk 1) {ans : Answer} {more : List Answer}
    (hans : s.xportAnswers = ans :: more) (hwf : ans.wf .read = true) {e : ErrCode}
    (hfail : readFailure n ans = some e) :
    ∃ t, Exchanges s [(.read, n, data)] [ans] t ∧
      t.regs = { s.regs with status := .error e, xportCode := if ans.st = .err then ans.code else s.regs.xportCode } ∧
      t.eng.phase = .idle ∧ t.buf = s.buf := by
  obtain ⟨t, hex, hruns, hregs, hbuf, -, hdir, hn, htodo⟩ := h.exchange hd hplan hask hans hwf
  have hops : answerOps t ans = failOps ans e := by
    simp only [answerOps, hdir, hn, readFailure_eq_some.1 hfail]
  rw [hops, failOps_eq] at htodo
  obtain ⟨hset, hruns'⟩ := hruns.perform_plain htodo (by split_ifs <;> simp [Micro.Plain])
  refine ⟨_, (hex.trans hset).trans (hruns'.perform_finish rfl), ?_, rfl, ?_⟩
  · rw [← finished_of_readFailure hfail, ← hregs]
    split_ifs <;> rfl
  · rw [← hbuf]
    split_ifs <;> rfl

/-! ### A length byte that fails -/

/-- At most three length bytes that continue, and then a failed answer: the command ends with the failure's code, and
WIRE_COUNT counts the bytes before it (40_varlen_codec.md R113). -/
theorem State.Runs.lengthField_fails {s : State} (hs : s.Runs) (hd : s.todo = [])
    (hp : s.eng.phase = .ld ∨ s.eng.phase = .rpLen) (hcount : s.regs.lenInfo.wireCount = 0) (hi : s.eng.i = 0)
    {bs : List Byte} (hbs : allContinue bs) (hlen : bs.length ≤ 3) (hask : s.CanAsk (bs.length + 1)) {ans : Answer}
    {more : List Answer} (hans : s.xportAnswers = byteAnswers bs ++ ans :: more) (hwf : ans.wf .read = true)
    {e : ErrCode} (hfail : readFailure 1 ans = some e) :
    ∃ t, Exchanges s (List.replicate (bs.length + 1) byteCall) (byteAnswers bs ++ [ans]) t ∧
      t.regs = { s.regs with
        status := .error e
        lenInfo := { s.regs.lenInfo with wireCount := BitVec.ofNat 3 bs.length }
        xportCode := if ans.st = .err then ans.code else s.regs.xportCode } ∧
      t.eng.phase = .idle ∧ t.buf = s.buf := by
  have hi0 : s.eng.i.toNat = 0 := by rw [hi]; rfl
  obtain ⟨t, hex, hruns, htodo, hregs, heng, hbuf, hti, -⟩ := hs.lengthField_continues hd hp (hcount.trans hi.symm) hbs
    (by omega) (hask.mono (Nat.le_add_right _ 1)) hans
  have hplan : plan t = .call .read 1 [] := by
    rw [plan, heng]
    obtain hp | hp := hp <;> simp only [hp]
  obtain ⟨u, hex', hregs', hidle, hbuf'⟩ := hruns.exchange_fails htodo hplan (hex.canAsk (by simpa using hask))
    (hex.answers_left hans) hwf hfail
  have hwire : t.eng.i = BitVec.ofNat 3 bs.length := by
    rw [← Nat.zero_add bs.length, ← hi0, ← hti, BitVec.ofNat_toNat, BitVec.setWidth_eq]
  refine ⟨u, ?_, ?_, hidle, hbuf'.trans hbuf⟩
  · rw [List.replicate_succ']
    exact hex.trans hex'
  · rw [hregs', hregs, hwire]

/-! ### LEN_DECODE -/

/-- The issue of LEN_DECODE while no command runs: it runs, and its first call is next (R120). -/
theorem lenDecode_issued {s : State} (hs : s.Ready) :
    ∃ t, exec .lenDecode s = .next t ∧ IssuedFrom s t ∧ t.Runs ∧ t.todo = [] ∧
      t.regs = { s.regs with
        status := .running
        lenValue := 0
        lenInfo := { s.regs.lenInfo with wireCount := 0 }
        xportCode := 0 } ∧
      t.eng.phase = .ld ∧ t.eng.i = 0 ∧ t.eng.acc = 0 := by
  obtain ⟨hinv, hb, hturns⟩ := hs
  obtain ⟨-, hw, -⟩ := idle_of_not_busy hinv hb
  exact ⟨_, rfl, ⟨⟨rfl, fun _ => rfl, rfl, rfl, rfl, rfl⟩, rfl, rfl⟩, ⟨hturns, nofun, hw⟩, rfl, rfl, rfl, rfl, rfl⟩

/-- Settles O28: the issue, the length field, and the two writes a decoded value leads to. -/
theorem lenDecodeCompletes : Obligations.LenDecodeCompletes := by
  intro s bs more hready hfield hans hask
  obtain ⟨t₀, hexec, hissue, hruns₀, hd₀, hregs₀, hphase₀, hi₀, hacc₀⟩ := lenDecode_issued hready
  obtain ⟨-, hbuf₀, -, hxport, -, -⟩ := hissue.outside
  obtain ⟨v, -, -, hv, -⟩ := varDecode_wellFormed [] hfield
  obtain ⟨t₁, hex₁, hruns₁, hd₁, hregs₁, -, hbuf₁⟩ := hruns₀.lengthField hd₀ (.inl hphase₀) (by rw [hregs₀]) hi₀ hacc₀
    hfield hv (hissue.canAsk hask) (hxport.trans hans)
  rw [decodedOps, if_pos hphase₀] at hd₁
  obtain ⟨hset, hruns₂⟩ := hruns₁.perform_plain (ops := [.setLenValue (v.setWidth 32)]) hd₁ (by simp [Micro.Plain])
  have hall := (hex₁.trans hset).trans (hruns₂.perform_finish rfl)
  simp only [List.append_nil] at hall
  obtain ⟨hdeadline, hlog⟩ := hall.of_issue hissue
  obtain ⟨k, hrun⟩ := hall.runs
  have hvalue : v.setWidth 32 = BitVec.ofNat 32 (groupSum bs) := by rw [← hv, BitVec.ofNat_toNat]
  refine ⟨t₀, k, _, hexec, hrun, ?_, fun a => ?_, rfl, hall.answers_left (hxport.trans hans),
    by simpa using hdeadline, hlog⟩
  · rw [← hvalue]
    simp only [finish, State.settled, settleRegs, onRegs, hregs₁, hregs₀]
    rfl
  · simp only [finish, State.settled, settleBuf, onBuf, hbuf₁, hbuf₀]

/-- Settles O30: the run up to the length field, which for READ_PACKET is the header byte's, and then the failure. -/
theorem lenDecodeKeepsTheFailuresCode : Obligations.LenDecodeKeepsTheFailuresCode := by
  constructor
  · intro s bs ans e more hready hlen hbs hwf hfail hans hask
    obtain ⟨t₀, hexec, hissue, hruns₀, hd₀, hregs₀, hphase₀, hi₀, -⟩ := lenDecode_issued hready
    obtain ⟨-, hbuf₀, -, hxport, -, -⟩ := hissue.outside
    obtain ⟨t, hex, hregs, hidle, hbuf⟩ := hruns₀.lengthField_fails hd₀ (.inl hphase₀) (by rw [hregs₀]) hi₀ hbs hlen
      (hissue.canAsk hask) (hxport.trans hans) hwf hfail
    obtain ⟨k, hrun⟩ := hex.runs
    refine ⟨t₀, k, t, hexec, hrun, by rw [hregs, hregs₀], fun a => by rw [hbuf, hbuf₀], hidle,
      hex.answers_left (by rw [hxport, hans]; simp), (hex.of_issue hissue).2⟩
  · intro s h bs ans e more hready hlen hbs hwf hfail hcap hfit hans hask
    obtain ⟨t₀, hexec, hissue, hruns₀, hd₀, hregs₀, heng₀⟩ := readPacket_issued hready hcap hfit
    obtain ⟨hcfg, hbuf₀, -, hxport, -, -⟩ := hissue.outside
    have hask₀ := hissue.canAsk hask
    have hans₀ : t₀.xportAnswers = [Answer.okBytes [h]] ++ (byteAnswers bs ++ ans :: more) := hxport.trans hans
    obtain ⟨t₁, hex₁, hruns₁, hd₁, hregs₁, heng₁, hbuf₁⟩ := hruns₀.header hd₀ (by rw [heng₀])
      (hask₀.mono (Nat.le_add_left 1 _)) hans₀ (by rw [hcfg]; omega)
    rw [heng₀] at heng₁
    obtain ⟨t, hex₂, hregs, hidle, hbuf⟩ := hruns₁.lengthField_fails hd₁ (.inr (by rw [heng₁]))
      (by rw [hregs₁, hregs₀]; rfl) (by rw [heng₁]; rfl) hbs hlen (hex₁.canAsk (hask₀.mono (by simp; omega)))
      (hex₁.answers_left hans₀) hwf hfail
    have hall := hex₁.trans hex₂
    obtain ⟨k, hrun⟩ := hall.runs
    refine ⟨t₀, k, t, hexec, hrun, ?_, fun a => ?_, hidle, hall.answers_left (by simpa using hans₀),
      by simpa [List.replicate_succ] using (hall.of_issue hissue).2⟩
    · rw [hregs, hregs₁, hregs₀, Hdr.ofByte, hdrType_eq_extractLsb', hdrFlags]
      rfl
    · rw [hbuf, hbuf₁, Memory.read_write, hbuf₀]

/-! ### LEN_DECODE after LEN_ENCODE -/

/-- The bytes of a word that hold a list's are that list. -/
theorem map_extractLsb'_range {bs : List Byte} {w : Word} (h : ∀ k < bs.length, w.extractLsb' (8 * k) 8 = bs.getD k 0) :
    (List.range bs.length).map (fun k => w.extractLsb' (8 * k) 8) = bs := by
  refine List.ext_getElem (by simp) fun k hk hk' => ?_
  simp [h k hk', hk']

/-- Settles O23: LEN_ENCODE leaves the machine ready, with the canonical field in ENC_BYTES, and LEN_DECODE of that
field gives its sum, which is the value encoded. -/
theorem encodeThenDecodeCommands : Obligations.EncodeThenDecodeCommands := by
  intro s more hready hle
  obtain ⟨hinv, hb, hturns⟩ := hready
  obtain ⟨t₀, n, w, hexec, hregs, hok, -, -, -, -, -, hturns₀, hxport, hdeadline, -⟩ := lenEncodeResult.2 s
  obtain ⟨hn, hbytes⟩ := hok hle
  rw [if_pos hle] at hregs
  set x : RemLen := s.regs.lenValue.setWidth 28 with hx
  have hready₀ : t₀.Ready := ⟨exec_inv hinv hb hexec, by rw [hregs]; rfl, hturns₀.trans hturns⟩
  have hfield : (List.range n.toNat).map (fun k => w.extractLsb' (8 * k) 8) = varEncode x := by
    rw [hn]
    exact map_extractLsb'_range fun k hk => hbytes k (hk.trans_le (encLen_bounds x).2)
  have hwire : BitVec.ofNat 3 (varEncode x).length = n := by
    rw [← encLen, ← hn, BitVec.ofNat_toNat, BitVec.setWidth_eq]
  have hvalue : BitVec.ofNat 32 (groupSum (varEncode x)) = s.regs.lenValue := by
    apply BitVec.eq_of_toNat_eq
    rw [groupSum_varEncode, hx, BitVec.toNat_ofNat, BitVec.toNat_setWidth]
    omega
  refine ⟨t₀, hexec, fun hans hask => ?_⟩
  rw [hregs] at hans hask
  dsimp only at hans hask
  rw [hfield] at hans
  obtain ⟨t₁, k, t, hexec₁, hrun, hregs₁, -, -, hleft, -⟩ := lenDecodeCompletes t₀ (varEncode x) more hready₀
    (wellFormedField_varEncode x) (hxport.trans hans) (by
      intro hhas
      rw [hregs] at hhas
      rw [hdeadline, ← encLen, ← hn]
      exact hask hhas)
  refine ⟨t₁, k, t, hexec₁, hrun, by rw [hregs₁], by rw [hregs₁, hvalue], ?_, hleft⟩
  rw [hregs₁, hregs]
  exact hwire

end Sys2Proof.Machine
end

section
/-! The HeaderCodec (O19, O20, O21): a header byte is its type above its flags, and the two commands that pack and unpack
it differ only in the HDR they leave. -/

namespace Sys2Proof.Machine

/-! ### A header byte is its two fields -/

/-- The packed byte has its type in bits 7 to 4 and its flags in bits 3 to 0 (41_header_codec.md R142). -/
theorem hdrPack_eq_append (t f : Nibble) : hdrPack t f = t ++ f := by
  rw [BitVec.append_def, BitVec.shiftLeftZeroExtend_eq, BitVec.setWidth'_eq, hdrPack]

/-- The type of a packed byte (R143). -/
@[simp] theorem hdrType_hdrPack (t f : Nibble) : hdrType (hdrPack t f) = t := by
  rw [hdrType_eq_extractLsb', hdrPack_eq_append, BitVec.extractLsb'_append_eq_left]

/-- The flags of a packed byte (R143). -/
@[simp] theorem hdrFlags_hdrPack (t f : Nibble) : hdrFlags (hdrPack t f) = f := by
  rw [hdrFlags, hdrPack_eq_append, BitVec.extractLsb'_append_eq_right]

/-- A byte's own fields pack to the byte (R143). -/
@[simp] theorem hdrPack_hdrType_hdrFlags (h : Byte) : hdrPack (hdrType h) (hdrFlags h) = h := by
  rw [hdrPack_eq_append, hdrType_eq_extractLsb', hdrFlags,
    BitVec.extractLsb'_append_extractLsb'_eq_extractLsb' (by rfl), BitVec.extractLsb'_eq_self]

/-- Settles O19: a header byte is its type above its flags. -/
theorem headerFieldsRoundTrip : Obligations.HeaderFieldsRoundTrip :=
  ⟨hdrPack_hdrType_hdrFlags, fun t f => ⟨hdrType_hdrPack t f, hdrFlags_hdrPack t f⟩⟩

/-! ### The two commands -/

/-- The state after command i has been issued, has left h in HDR and has completed at once (R145, R148). -/
def State.hdrCompleted (s : State) (i : Instr) (h : Hdr) : State :=
  finish .none { issue i.opcode s with regs := { s.regs with hdr := h } }

/-- HDR_UNPACK leaves in HDR the byte with that byte's own fields (R145). -/
theorem exec_hdrUnpack (s : State) :
    exec .hdrUnpack s = .next (s.hdrCompleted .hdrUnpack (Hdr.ofByte s.regs.hdr.byte)) := rfl

/-- HDR_PACK leaves in HDR the fields with the byte they pack to (R148). -/
theorem exec_hdrPack (s : State) :
    exec .hdrPack s = .next (s.hdrCompleted .hdrPack
      { s.regs.hdr with byte := hdrPack s.regs.hdr.type s.regs.hdr.flags }) := rfl

/-- The registers then: STATUS is success, HDR is h, and every other register is as it was. -/
theorem State.hdrCompleted_regs (s : State) (i : Instr) (h : Hdr) :
    (s.hdrCompleted i h).regs = { s.regs with status := .success, hdr := h } := rfl

/-- The Engine then is idle, with the framing fields cleared and everything latched kept (10_state.md R41). -/
theorem State.hdrCompleted_eng (s : State) (i : Instr) (h : Hdr) :
    (s.hdrCompleted i h).eng =
      { issuedEngine i s with phase := .idle, wait := .none, op := (s.hdrCompleted i h).eng.op } := rfl

/-- No write is due then. -/
theorem State.hdrCompleted_todo (s : State) (i : Instr) (h : Hdr) : (s.hdrCompleted i h).todo = [] := rfl

/-- Nothing outside the registers and the Engine has changed then. -/
theorem State.sameOutside_hdrCompleted (s : State) (i : Instr) (h : Hdr) : SameOutside s (s.hdrCompleted i h) :=
  ⟨rfl, fun _ => rfl, rfl, rfl, rfl, rfl⟩

/-- Settles O20: HDR becomes its byte with that byte's type and flags, which are its two halves. -/
theorem hdrUnpackResult : Obligations.HdrUnpackResult := by
  refine ⟨decode_encode .hdrUnpack, fun s => ⟨_, exec_hdrUnpack s, ?_, s.hdrCompleted_eng _ _, s.hdrCompleted_todo _ _,
    s.sameOutside_hdrCompleted _ _⟩⟩
  rw [State.hdrCompleted_regs, Hdr.ofByte, hdrType_eq_extractLsb', hdrFlags]

/-- Settles O21: the byte is the packed one, whose halves are the type and the flags it was packed from. -/
theorem hdrPackResult : Obligations.HdrPackResult := by
  refine ⟨decode_encode .hdrPack, fun s => ⟨_, hdrPack s.regs.hdr.type s.regs.hdr.flags, exec_hdrPack s,
    s.hdrCompleted_regs _ _, ?_, hdrFlags_hdrPack _ _, s.hdrCompleted_eng _ _, s.hdrCompleted_todo _ _,
    s.sameOutside_hdrCompleted _ _⟩⟩
  rw [← hdrType_eq_extractLsb', hdrType_hdrPack]

end Sys2Proof.Machine
end

section
/-! The issue of READ_PACKET and of SEND_PACKET (O25, O26), and the check of its operand that each makes in the Engine's
first step (O31, O37). -/

namespace Sys2Proof.Machine

/-! ### The issue -/

/-- Settles O25: the issue is one equation, and every field of it can be read off. -/
theorem readPacketIssue : Obligations.ReadPacketIssue := fun _ =>
  ⟨_, rfl, rfl, rfl, rfl, fun _ => rfl, rfl, rfl, rfl, rfl⟩

/-- Settles O26: as O25, from the equation of SEND_PACKET's issue. -/
theorem sendPacketIssue : Obligations.SendPacketIssue := fun _ =>
  ⟨_, rfl, rfl, rfl, rfl, fun _ => rfl, rfl, rfl, rfl, rfl⟩

/-! ### The check -/

/-- A capacity beyond the storage is a bad argument (42_packet_framer.md R171). -/
theorem capOps_of_beyond {cap bufSize : Word} (h : bufSize.toNat < cap.toNat) :
    capOps cap bufSize = [.finish .badArgument] :=
  if_pos h

/-- Into a capacity of 0 nothing fits, not even the header byte (R171). -/
theorem capOps_zero (bufSize : Word) : capOps 0 bufSize = [.finish .bufferOverflow] := by
  have hle : ¬ (0 : Word) > bufSize := Nat.not_lt_zero bufSize.toNat
  rw [capOps, if_neg hle, if_pos rfl]

/-- A length beyond the storage is a bad argument (R185). -/
theorem lenOps_of_beyond {len bufSize : Word} (h : bufSize.toNat < len.toNat) :
    lenOps len bufSize = [.finish .badArgument] :=
  if_pos h

/-- The Engine's step when the end of the command is due. -/
theorem engineStep_of_finish_due {s : State} {c : ErrCode} {rest : List Micro} (hp : s.eng.phase ≠ .idle)
    (hw : s.eng.wait = .none) (hd : s.todo = .finish c :: rest) : engineStep s = .next (finish c s) :=
  engineStep_of_due hp hw hd

/-- READ_PACKET issued with a capacity that step 0 refuses: the Engine's first step ends it, and nothing outside the
registers and the Engine has changed (R171). -/
theorem readPacket_ends_at_check {s : State} {c : ErrCode} (hinv : s.Inv) (hb : s.regs.status.busy = false)
    (hops : capOps s.regs.cap s.cfg.bufSize = [.finish c]) :
    ∃ t₀ t, exec .readPacket s = .next t₀ ∧ engineStep t₀ = .next t ∧ t.regs.status = Status.finished c ∧
      t.eng.phase = .idle ∧ SameOutside s t := by
  obtain ⟨-, hw, -⟩ := idle_of_not_busy hinv hb
  exact ⟨_, _, rfl, engineStep_of_finish_due nofun hw hops, rfl, rfl, rfl, fun _ => rfl, rfl, rfl, rfl, rfl⟩

/-- Settles O31: what step 0 answers for each of the two capacities. -/
theorem readPacketCapacityCheck : Obligations.ReadPacketCapacityCheck := by
  intro s hinv hb
  constructor
  · intro hbeyond
    exact readPacket_ends_at_check hinv hb (capOps_of_beyond hbeyond)
  · intro hzero
    exact readPacket_ends_at_check hinv hb (by rw [hzero, capOps_zero])

/-- Settles O37: the check of LENGTH is due at the issue, and it is the end of the command. -/
theorem sendPacketLengthCheck : Obligations.SendPacketLengthCheck := by
  intro s hinv hb hbeyond
  obtain ⟨-, hw, -⟩ := idle_of_not_busy hinv hb
  exact ⟨_, _, rfl, engineStep_of_finish_due nofun hw (lenOps_of_beyond hbeyond), rfl, rfl, rfl, fun _ => rfl, rfl, rfl,
    rfl, rfl⟩

end Sys2Proof.Machine
end

section
/-! The Engine at a transport call and while it waits, step by step and with no turn given (log 3): how the call begins
(O38), how much a read asks for (O50), the DeadlineSource's answer (O39), a Transport answer that fails (O35, O41), and
no answer at all (O43). -/

namespace Sys2Proof.Machine

/-! ### A call begins -/

/-- Settles O38: with nothing due the step is `beginCall`, which tells the two cases apart by the latched deadline. -/
theorem callBeginsWithItsTimeout : Obligations.CallBeginsWithItsTimeout := by
  intro s d n data hturns hp hw hd hplan
  have hcall : step s = beginCall s := State.Runs.step_call ⟨hturns, hp, hw⟩ hd
  constructor
  · intro hl
    rw [hcall, beginCall, hplan]
    simp only [hl, if_true, emit]
  · intro hl
    have hsend : beginCall s = sendRequest unbounded s := by simp [beginCall, hplan, hl]
    rw [hcall, hsend, sendRequest_of_call _ hplan]
    rfl

/-- Every planned read asks for at least one byte: for one of the header or the length, or for payload that is missing
(42_packet_framer.md R164, R177). -/
theorem plan_read_pos {s : State} {n : Word} {data : List Byte} (h : plan s = .call .read n data) : 1 ≤ n.toNat := by
  cases hp : s.eng.phase with
  | idle => simp [plan, hp] at h
  | ld | rpHdr | rpLen =>
    obtain ⟨rfl, -⟩ : 1 = n ∧ [] = data := by simpa [plan, hp] using h
    decide
  | rpPay =>
    have hv := s.eng.v.isLt
    obtain ⟨hlt, rfl⟩ := (plan_dir h).2 hp
    rw [BitVec.toNat_sub, BitVec.toNat_setWidth]
    omega
  | sp => exact absurd ((plan_dir h).1.2 hp) nofun

/-- Under the invariant the request in flight is the planned call (R162). -/
theorem State.Inv.plan_of_waiting {s : State} (h : s.Inv) (hw : s.eng.wait = .xport) :
    plan s = .call s.eng.req.dir s.eng.req.n s.eng.req.wdata := by
  obtain ⟨-, -, -, -, -, -, -, -, -, -, -, hplan, -⟩ := h
  exact hplan hw

/-- Settles O50: after a step that sends a request the Engine waits for the answer to it (O51), and by the invariant,
which the step keeps (O45), it is the planned call. -/
theorem noEmptyReadRequest : Obligations.NoEmptyReadRequest := by
  intro s t r hinv hstep hlog hdir
  obtain hnone | ⟨off, v, hreg⟩ | ⟨a, b, hbuf⟩ | ⟨hquery, -⟩ | ⟨q, hsent, -, hw, hreq⟩ :=
    oneRequestInFlight s t hinv hstep
  · simp [hlog] at hnone
  · simp [hlog] at hreg
  · simp [hlog] at hbuf
  · simp [hlog] at hquery
  · obtain rfl : r = q := by simpa [hlog] using hsent
    have hplan := (everyStepKeepsTheInvariant s t hinv hstep).plan_of_waiting hw
    rw [hreq, hdir] at hplan
    exact plan_read_pos hplan

/-! ### While the Engine waits -/

/-- Under the invariant an Engine that waits runs a command, and nothing is due (00_scope.md R8, 10_state.md R39). -/
theorem State.Inv.of_waiting {s : State} (h : s.Inv) (hw : s.eng.wait ≠ .none) :
    s.eng.phase ≠ .idle ∧ s.todo = [] ∧ s.regs.status.busy = true := by
  have hp : s.eng.phase ≠ .idle := by
    obtain ⟨-, -, -, -, -, -, -, hidle, -⟩ := h
    exact fun hp => hw (hidle hp).1
  exact ⟨hp, (wait_framed h hw).1, busy_of_phase h hp⟩

/-- Settles O39: the answer is taken, and with nothing else due the Engine's next step sends the request. -/
theorem deadlineAnswerIsPassedOn : Obligations.DeadlineAnswerIsPassedOn := by
  intro s ms more d n data hinv hturns hw hans hplan
  obtain ⟨hp, hd, -⟩ := hinv.of_waiting (by simp [hw])
  have hanswer := step_deadline hturns hw hans
  have hruns : (State.answered { s with deadlineAnswers := more } [.send ms]).Runs := ⟨hturns, hp, rfl⟩
  have hsend := (hruns.step_write rfl).trans (sendRequest_of_call ms hplan)
  refine State.runsTo_succ.2 ⟨_, hanswer, State.runsTo_succ.2 ⟨_, hsend, ?_⟩⟩
  simp [State.runsTo, Host.Core.run, emit, hd]

/-! ### An answer that fails -/

/-- The command ended by this failed answer: its code in STATUS, the transport's own code in XPORT_CODE for ERR alone,
and nothing else written (R163, 60_exceptions.md R201, R205). -/
def State.failed (s : State) (ans : Answer) (e : ErrCode) (more : List Answer) : State :=
  { s with
    regs := { s.regs with status := .error e, xportCode := if ans.st = .err then ans.code else s.regs.xportCode }
    eng := { s.eng with phase := .idle, wait := .none }
    xportAnswers := more }

/-- The step in which the end of a running command is due. -/
theorem State.Runs.runsTo_finish {s : State} (h : s.Runs) {c : ErrCode} (hd : s.todo = [.finish c]) :
    s.runsTo 1 (finish c s) :=
  State.runsTo_succ.2 ⟨_, h.step_write hd, State.runsTo_zero _⟩

/-- The writes that a failed answer leads to: XPORT_CODE if it is ERR, and the end (R163). -/
theorem State.Runs.runsTo_fails {s : State} (h : s.Runs) {ans : Answer} {e : ErrCode} (hd : s.todo = failOps ans e) :
    s.runsTo (if ans.st = .err then 2 else 1) (finish e
      { s with regs := { s.regs with xportCode := if ans.st = .err then ans.code else s.regs.xportCode } }) := by
  rw [failOps_eq] at hd
  by_cases herr : ans.st = .err
  · rw [if_pos herr] at hd
    simp only [if_pos herr]
    have hrest : State.Runs { s with regs := { s.regs with xportCode := ans.code }, todo := [.finish e] } :=
      ⟨h.turns, h.phase, h.wait⟩
    exact State.runsTo_succ.2 ⟨_, h.step_write hd, hrest.runsTo_finish rfl⟩
  · rw [if_neg herr] at hd
    simp only [if_neg herr]
    exact h.runsTo_finish hd

/-- A failed answer to the read in flight is taken in one step, and its writes end the command (R163). -/
theorem runsTo_failed {s : State} {ans : Answer} {e : ErrCode} {more : List Answer} (hinv : s.Inv)
    (hturns : s.turns = []) (hw : s.eng.wait = .xport) (hdir : s.eng.req.dir = .read)
    (hans : s.xportAnswers = ans :: more) (hwf : ans.wf .read = true) (hfail : readFailure s.eng.req.n ans = some e) :
    s.runsTo ((if ans.st = .err then 2 else 1) + 1) (s.failed ans e more) := by
  obtain ⟨hp, hd, -⟩ := hinv.of_waiting (by simp [hw])
  have hops : answerOps s ans = failOps ans e := by simp only [answerOps, hdir, readFailure_eq_some.1 hfail]
  have hruns : (State.answered { s with xportAnswers := more } (answerOps s ans)).Runs := ⟨hturns, hp, rfl⟩
  have hend := State.runsTo_succ.2 ⟨_, step_answer hturns hw hans (hdir ▸ hwf), hruns.runsTo_fails hops⟩
  simpa only [State.failed, finish, finished_of_readFailure hfail, ← hd] using hend

/-- An OK answer to a read that counts no byte, or more than were asked for, breaks the port's contract (R163). -/
theorem readFailure_of_badCount {n : Word} {ans : Answer} (hst : ans.st = .ok)
    (hcount : ans.n = 0 ∨ n.toNat < ans.n.toNat) : readFailure n ans = some .xportContract := by
  have hbad : ¬ (1 ≤ ans.n ∧ ans.n ≤ n) := by
    rintro ⟨hpos, hle⟩
    obtain hzero | hover := hcount
    · rw [hzero] at hpos
      exact absurd hpos (by decide)
    · exact absurd hover (not_lt.2 hle)
  rw [readFailure_eq_some, readResult, hst]
  exact if_neg hbad

/-- Settles O41: each of the four answers fails with its own code. -/
theorem failedReadAnswerEndsTheCommand : Obligations.FailedReadAnswerEndsTheCommand := by
  intro s ans more hinv hturns hw hdir hans
  have hfails := fun e => runsTo_failed (e := e) hinv hturns hw hdir hans
  refine ⟨fun hst => ?_, fun hst => ?_, fun hst => ?_, fun hst hlen hcount => ?_⟩
  · simpa [State.failed, hst] using hfails .transportError (by simp [Answer.wf, hst])
      (by simp [readFailure, readResult, hst])
  · simpa [State.failed, hst] using hfails .timeoutExpired (by simp [Answer.wf, hst])
      (by simp [readFailure, readResult, hst])
  · simpa [State.failed, hst] using hfails .connectionClosed (by simp [Answer.wf, hst])
      (by simp [readFailure, readResult, hst])
  · simpa [State.failed, hst] using hfails .xportContract (by simp [Answer.wf, hst, hlen])
      (readFailure_of_badCount hst hcount)

/-- Settles O35: the answer is to a read, since READ_PACKET makes no write call, and XFER_COUNT has counted the payload
received before it by the invariant. -/
theorem readPacketPayloadFailure : Obligations.ReadPacketPayloadFailure := by
  intro s ans e more hinv hturns hp hw hwf hfail hans
  have hdir : s.eng.req.dir = .read := by
    have hwrite := (plan_dir (hinv.plan_of_waiting hw)).1
    cases hd : s.eng.req.dir with
    | read => rfl
    | write => exact absurd (hp.symm.trans (hwrite.1 hd)) nofun
  obtain ⟨-, -, -, -, -, hpay, -⟩ := wait_framed hinv (by simp [hw])
  obtain ⟨-, -, -, -, hcount, -⟩ := hpay hp
  exact ⟨_, _, runsTo_failed hinv hturns hw hdir hans hwf hfail, rfl, hcount, fun _ => rfl, rfl, rfl, rfl⟩

/-! ### No answer -/

/-- A state that steps to itself stays as it is for any number of steps. -/
theorem runsTo_self {s : State} (h : step s = .next s) (k : Nat) : s.runsTo k s := by
  induction k with
  | zero => exact s.runsTo_zero
  | succ k ih => exact State.runsTo_succ.2 ⟨s, h, ih⟩

/-- An Engine that runs no command does nothing (60_exceptions.md R220). -/
theorem engineStep_of_idle {s : State} (hp : s.eng.phase = .idle) : engineStep s = .next s := by
  rw [engineStep, hp]

/-- Settles O43: whoever the step is left to, the Transport, the DeadlineSource or the idle Engine, changes nothing. -/
theorem waitingAndIdleChangeNothing : Obligations.WaitingAndIdleChangeNothing := by
  refine ⟨fun s k hinv hturns hw hans => ?_, fun s k hinv hturns hw hans => ?_, fun s k hready => ?_⟩
  · obtain ⟨-, -, hb⟩ := hinv.of_waiting (by simp [hw])
    exact ⟨runsTo_self (by rw [step_default hturns, defaultStep, hw]; simp only [transportStep, hans]) k, hb⟩
  · obtain ⟨-, -, hb⟩ := hinv.of_waiting (by simp [hw])
    exact ⟨runsTo_self (by rw [step_default hturns, defaultStep, hw]; simp only [deadlineStep, hans]) k, hb⟩
  · obtain ⟨hinv, hb, hturns⟩ := hready
    obtain ⟨hp, hw, -⟩ := idle_of_not_busy hinv hb
    exact runsTo_self (by rw [step_default hturns, defaultStep, hw]; exact engineStep_of_idle hp) k

end Sys2Proof.Machine
end

section
/-! READ_PACKET that ends before its payload: at the header read (O32), and with a packet that does not fit (O34). -/

namespace Sys2Proof.Machine

/-! ### The header read -/

/-- Settles O32: the issue, and then a one-byte read that fails. -/
theorem readPacketHeaderFailure : Obligations.ReadPacketHeaderFailure := by
  intro s ans e more hready hcap hfit hwf hfail hans hask
  obtain ⟨t₀, hexec, hissue, hruns₀, hd₀, hregs₀, heng₀⟩ := readPacket_issued hready hcap hfit
  obtain ⟨-, hbuf₀, -, hxport, -, -⟩ := hissue.outside
  have hplan : plan t₀ = .call .read 1 [] := by rw [plan, heng₀]
  obtain ⟨t, hex, hregs, hidle, hbuf⟩ :=
    hruns₀.exchange_fails hd₀ hplan (hissue.canAsk hask) (hxport.trans hans) hwf hfail
  obtain ⟨k, hrun⟩ := hex.runs
  refine ⟨t₀, k, t, hexec, hrun, ?_, fun a => by rw [hbuf, hbuf₀], hidle, hex.answers_left (hxport.trans hans),
    (hex.of_issue hissue).2⟩
  rw [hregs, hregs₀]
  rfl

/-! ### The capacity test -/

/-- The canonical length bytes that READ_PACKET stores: all of them if they fit behind the header byte, and else none
(42_packet_framer.md R174). -/
def fittingLength (capL : Word) (v : RemLen) : List Byte := if 1 + encLen v ≤ capL.toNat then varEncode v else []

/-- The end of step 3 for a packet that does not fit: the length bytes that fit, and BUFFER_OVERFLOW (R174, R176). -/
theorem storeOps_of_overflow {capL : Word} {v : RemLen}
    (h : capL.toNat < 1 + encLen v ∨ v ≠ 0 ∧ capL.toNat < 1 + encLen v + v.toNat) :
    storeOps capL (varEncode v) v = memWriteOps 1 (fittingLength capL v) ++ [.finish .bufferOverflow] := by
  by_cases hlen : 1 + encLen v ≤ capL.toNat
  · obtain ⟨hv, hover⟩ := h.resolve_left (not_lt.2 hlen)
    rw [storeOps_of_fits hlen, payloadOps, if_neg hv, if_pos hover, fittingLength, if_pos hlen]
  · rw [fittingLength, if_neg hlen]
    exact if_pos (not_le.1 hlen)

/-- What BUF holds once they are stored behind the header byte. -/
theorem read_fittingLength (m : Memory) (h : Byte) (capL : Word) (v : RemLen) {m' : Memory}
    (hm : m'.Begins m (h :: fittingLength capL v)) (a : Nat) :
    m'.read a =
      if a = 0 then some h
      else if a < 1 + encLen v ∧ 1 + encLen v ≤ capL.toNat then (varEncode v)[a - 1]?
      else m.read a := by
  have hlength : (varEncode v).length = encLen v := rfl
  rw [hm a, fittingLength]
  cases a with
  | zero => simp
  | succ a =>
    have hlt : a + 1 < 1 + encLen v ↔ a < encLen v := by omega
    by_cases hlen : 1 + encLen v ≤ capL.toNat
    · rw [if_pos hlen]
      simp [hlen, hlt, hlength]
    · rw [if_neg hlen]
      simp [hlen]

/-- The length bytes that fit end inside the capacity. -/
theorem fittingLength_le {capL : Word} (hcap : 1 ≤ capL.toNat) (v : RemLen) :
    1 + (fittingLength capL v).length ≤ capL.toNat := by
  unfold fittingLength
  split_ifs with hlen
  · exact hlen
  · exact hcap

/-- Settles O34: up to the decoded length, then the length bytes that fit, and the end. -/
theorem readPacketOverflow : Obligations.ReadPacketOverflow := by
  intro s h len v more hready hfield hv hcap hfit hover hans hask
  obtain ⟨t₀, t₁, hexec, hissue, hex₁, hruns₁, hd₁, hregs₁, hbuf₁, -⟩ :=
    readPacket_takesLength hready hfield hv hcap hfit hans hask
  obtain ⟨hcfg₀, -, -, hxport, -, -⟩ := hissue.outside
  rw [storeOps_of_overflow hover] at hd₁
  have hin : 1 + (fittingLength s.regs.cap v).length ≤ t₁.cfg.bufSize.toNat := by
    rw [hex₁.cfg, hcfg₀]
    exact (fittingLength_le hcap v).trans hfit
  obtain ⟨hex₂, hruns₂⟩ := hruns₁.storeBytes hd₁ hin
  have hall := (hex₁.trans hex₂).trans (hruns₂.perform_finish rfl)
  simp only [List.append_nil] at hall
  obtain ⟨k, hrun⟩ := hall.runs
  refine ⟨t₀, k, _, hexec, hrun, ?_, read_fittingLength s.buf h s.regs.cap v (hbuf₁.store _), rfl,
    hall.answers_left (hxport.trans hans), (hall.of_issue hissue).2⟩
  simp only [finish, hregs₁, Regs.lengthTaken, Regs.readIssued, Hdr.ofByte, hdrType_eq_extractLsb', hdrFlags]
  rfl

end Sys2Proof.Machine
end

section
/-! SEND_PACKET (O36): the bytes it collects, its one write call, and the answer it passes on. -/

namespace Sys2Proof.Machine

/-- Bytes that stand in BUF from address a upwards are what a range read of them answers. -/
theorem Memory.readRange_eq_some {m : Memory} {a : Nat} {bs : List Byte}
    (h : ∀ j < bs.length, m.read (a + j) = bs[j]?) : m.readRange a bs.length = some bs := by
  cases hr : m.readRange a bs.length with
  | none =>
    obtain ⟨j, hj, hnone⟩ := Memory.readRange_none.1 hr
    rw [h j hj, List.getElem?_eq_getElem hj] at hnone
    cases hnone
  | some cs =>
    obtain ⟨hlen, hread⟩ := Memory.readRange_spec hr
    refine congrArg some (List.ext_getElem? fun j => ?_)
    obtain hj | hj := lt_or_ge j bs.length
    · rw [← hread j hj, h j hj]
    · rw [List.getElem?_eq_none hj, List.getElem?_eq_none (hlen ▸ hj)]

/-- The code that the answer to a write ends SEND_PACKET with (42_packet_framer.md R166, R186). -/
def Answer.writeCode (a : Answer) : ErrCode :=
  match a.st with
  | .ok => .none
  | .err => .transportError
  | .tmo => .timeoutExpired
  | .cls => .connectionClosed

/-- The register it writes before: XFER_COUNT for OK, XPORT_CODE for ERR, and none else (R166, R187). -/
def Answer.writeResult (a : Answer) : List Micro :=
  match a.st with
  | .ok => [.setXferCount a.n]
  | .err => [.setXportCode a.code]
  | .tmo | .cls => []

/-- An answer to a write writes one register at most, and ends the command with the answer's code. -/
theorem writeOps_eq (a : Answer) : writeOps a = a.writeResult ++ [.finish a.writeCode] := by
  unfold writeOps failOps Answer.writeResult Answer.writeCode
  cases a.st <;> rfl

/-- That write neither asks an agent nor ends the command. -/
theorem Answer.plain_of_mem_writeResult {a : Answer} {op : Micro} (h : op ∈ a.writeResult) (c : Config) :
    op.Plain c := by
  unfold Answer.writeResult at h
  cases hst : a.st with
  | ok | err =>
    obtain rfl := List.mem_singleton.1 (by simpa only [hst] using h)
    trivial
  | tmo | cls => simp [hst] at h

/-- And it leaves BUF. -/
theorem settleBuf_writeResult (a : Answer) (m : Memory) : settleBuf a.writeResult m = m := by
  unfold Answer.writeResult
  cases a.st <;> rfl

/-- SEND_PACKET's registers at its issue (R185). -/
def Regs.sendIssued (r : Regs) : Regs := { r with status := .running, xferCount := 0, xportCode := 0 }

/-- The issue of SEND_PACKET with a length of at most BUF_SIZE: it runs, and its call is next (R185). -/
theorem sendPacket_issued {s : State} (hs : s.Ready) (hfit : s.regs.length.toNat ≤ s.cfg.bufSize.toNat) :
    ∃ t, exec .sendPacket s = .next t ∧ IssuedFrom s t ∧ t.Runs ∧ t.todo = [] ∧ t.regs = s.regs.sendIssued ∧
      t.eng.phase = .sp ∧ t.eng.lenL = s.regs.length := by
  obtain ⟨hinv, hb, hturns⟩ := hs
  obtain ⟨-, hw, -⟩ := idle_of_not_busy hinv hb
  have hops : lenOps s.regs.length s.cfg.bufSize = [] := if_neg (not_lt.2 hfit)
  exact ⟨_, rfl, ⟨⟨rfl, fun _ => rfl, rfl, rfl, rfl, rfl⟩, rfl, rfl⟩, ⟨hturns, nofun, hw⟩, hops, rfl, rfl, rfl⟩

/-- SEND_PACKET's call is the write of its LENGTH bytes of BUF (R185). -/
theorem plan_sending {s : State} (hp : s.eng.phase = .sp) {data : List Byte} (hlen : data.length = s.eng.lenL.toNat)
    (hdata : ∀ a < data.length, s.buf.read a = data[a]?) : plan s = .call .write s.eng.lenL data := by
  have hrange : s.buf.readRange 0 s.eng.lenL.toNat = some data := by
    rw [← hlen]
    exact Memory.readRange_eq_some fun j hj => by rw [Nat.zero_add, hdata j hj]
  rw [plan, hp]
  simp only [hrange]

/-- A write call and its answer: the answer's register is written, and the command ends with the answer's code. -/
theorem State.Runs.exchange_write {s : State} (h : s.Runs) (hd : s.todo = []) {n : Word} {data : List Byte}
    (hplan : plan s = .call .write n data) (hask : s.CanAsk 1) {ans : Answer} {more : List Answer}
    (hans : s.xportAnswers = ans :: more) :
    ∃ t, Exchanges s [(.write, n, data)] [ans] t ∧
      t.regs = { settleRegs ans.writeResult s.regs with status := Status.finished ans.writeCode } ∧
      t.eng.phase = .idle ∧ t.buf = s.buf := by
  obtain ⟨t, hex, hruns, hregs, hbuf, -, hdir, -, htodo⟩ := h.exchange hd hplan hask hans rfl
  have hops : answerOps t ans = writeOps ans := by simp only [answerOps, hdir]
  rw [hops, writeOps_eq] at htodo
  obtain ⟨hset, hruns'⟩ := hruns.perform_plain htodo fun op hop => Answer.plain_of_mem_writeResult hop t.cfg
  refine ⟨_, (hex.trans hset).trans (hruns'.perform_finish rfl), ?_, rfl, (settleBuf_writeResult ans t.buf).trans hbuf⟩
  rw [← hregs]
  rfl

/-- Settles O36: the issue, one write call, and what each of the four answers leaves in the registers. -/
theorem sendPacketMakesOneCall : Obligations.SendPacketMakesOneCall := by
  intro s data ans more hready hfit hlen hdata hans hask
  obtain ⟨t₀, hexec, hissue, hruns₀, hd₀, hregs₀, hp₀, hlen₀⟩ := sendPacket_issued hready hfit
  obtain ⟨-, hbuf₀, -, hxport, -, -⟩ := hissue.outside
  have hplan := plan_sending hp₀ (hlen₀ ▸ hlen) fun a ha => (hbuf₀ a).trans (hdata a ha)
  obtain ⟨t, hex, hregs, hidle, hbuf⟩ := hruns₀.exchange_write hd₀ hplan (hissue.canAsk hask) (hxport.trans hans)
  rw [hlen₀] at hex
  obtain ⟨hdeadline, hlog⟩ := hex.of_issue hissue
  obtain ⟨k, hrun⟩ := hex.runs
  refine ⟨t₀, k, t, hexec, hrun, ?_, fun a => by rw [hbuf, hbuf₀], hidle, hex.answers_left (hxport.trans hans),
    hdeadline, hlog⟩
  rw [hregs, hregs₀]
  unfold Answer.writeResult Answer.writeCode
  cases ans.st <;> rfl

end Sys2Proof.Machine
end

section
/-! A length field whose four bytes all continue (O29): the decoder's fourth step ends LEN_DECODE, and READ_PACKET
behind its header byte, with MALFORMED_LENGTH. -/

namespace Sys2Proof.Machine

/-! ### The fourth length byte -/

/-- A length byte the decoder calls malformed ends the command, and WIRE_COUNT counts it (40_varlen_codec.md R112). -/
theorem State.Runs.lengthByte_malformed {s : State} (hs : s.Runs) (hd : s.todo = [])
    (hp : s.eng.phase = .ld ∨ s.eng.phase = .rpLen) (hask : s.CanAsk 1) {b : Byte} {more : List Answer}
    (hans : s.xportAnswers = Answer.okBytes [b] :: more) (hdec : varDecStep s.eng.acc s.eng.i b = .malformed) :
    ∃ t, Exchanges s [byteCall] [Answer.okBytes [b]] t ∧
      t.regs = { s.regs with
        status := .error .malformedLength
        lenInfo := { s.regs.lenInfo with wireCount := s.eng.i + 1 } } ∧
      t.eng.phase = .idle ∧ t.buf = s.buf := by
  obtain ⟨t, hex, hruns, hregs, hbuf, -, htodo⟩ := hs.lengthByte hd hp hask hans
  rw [lenByteOps, hdec] at htodo
  obtain ⟨hset, hruns'⟩ := hruns.perform_plain (ops := [.setI (s.eng.i + 1), .setWireCount (s.eng.i + 1)]) htodo
    (by simp [Micro.Plain])
  refine ⟨_, (hex.trans hset).trans (hruns'.perform_finish rfl), ?_, rfl, hbuf⟩
  rw [← hregs]
  rfl

/-- Four length bytes that all continue: three that lead to another, and the fourth, which is malformed (R111). -/
theorem State.Runs.lengthField_malformed {s : State} (hs : s.Runs) (hd : s.todo = [])
    (hp : s.eng.phase = .ld ∨ s.eng.phase = .rpLen) (hcount : s.regs.lenInfo.wireCount = 0) (hi : s.eng.i = 0)
    {bs : List Byte} (hbs : allContinue bs) (hlen : bs.length = 4) (hask : s.CanAsk 4) {more : List Answer}
    (hans : s.xportAnswers = byteAnswers bs ++ more) :
    ∃ t, Exchanges s (List.replicate 4 byteCall) (byteAnswers bs) t ∧
      t.regs = { s.regs with
        status := .error .malformedLength
        lenInfo := { s.regs.lenInfo with wireCount := 4 } } ∧
      t.eng.phase = .idle ∧ t.buf = s.buf := by
  obtain rfl | ⟨front, last, rfl⟩ := bs.eq_nil_or_concat'
  · cases hlen
  obtain ⟨hfront, hlast⟩ := List.forall_mem_append.1 hbs
  have hthree : front.length = 3 := by simpa using hlen
  have hi0 : s.eng.i.toNat = 0 := by rw [hi]; rfl
  have hans' : s.xportAnswers = byteAnswers front ++ (Answer.okBytes [last] :: more) := by
    simpa [byteAnswers] using hans
  obtain ⟨t, hex, hruns, htodo, hregs, heng, hbuf, hti, -⟩ := hs.lengthField_continues hd hp (hcount.trans hi.symm)
    hfront (by omega) (hask.mono (by omega)) hans'
  have hfourth : t.eng.i.toNat = 3 := by omega
  obtain ⟨u, hex', hregs', hidle, hbuf'⟩ := hruns.lengthByte_malformed htodo (by rw [heng]; exact hp)
    (hex.canAsk (by simpa [hthree] using hask)) (hex.answers_left hans')
    (varDecStep_of_fourth t.eng.acc (hlast last List.mem_cons_self) hfourth)
  have hwire : t.eng.i + 1 = 4 := by bv_omega
  refine ⟨u, ?_, ?_, hidle, hbuf'.trans hbuf⟩
  · have hall := hex.trans hex'
    rw [hthree] at hall
    simpa [byteAnswers] using hall
  · rw [hregs', hregs, hwire]

/-! ### The two commands -/

/-- READ_PACKET up to its header byte, which stands in HDR and BUF; its first length byte is next (R170, R172). -/
theorem readPacket_takesHeader {s : State} {h : Byte} {more : List Answer} (hs : s.Ready)
    (hcap : 1 ≤ s.regs.cap.toNat) (hfit : s.regs.cap.toNat ≤ s.cfg.bufSize.toNat)
    (hans : s.xportAnswers = Answer.okBytes [h] :: more) (hask : s.answersDeadlines 1) :
    ∃ t₀ t, exec .readPacket s = .next t₀ ∧ IssuedFrom s t₀ ∧ Exchanges t₀ [byteCall] [Answer.okBytes [h]] t ∧
      t.Runs ∧ t.todo = [] ∧ t.regs = { s.regs.readIssued with hdr := Hdr.ofByte h } ∧ t.eng.phase = .rpLen ∧
      t.eng.i = 0 ∧ ∀ a, t.buf.read a = if a = 0 then some h else s.buf.read a := by
  obtain ⟨t₀, hexec, hissue, hruns₀, hd₀, hregs₀, heng₀⟩ := readPacket_issued hs hcap hfit
  obtain ⟨hcfg, hbuf₀, -, hxport, -, -⟩ := hissue.outside
  obtain ⟨t, hex, hruns, hd, hregs, heng, hbuf⟩ := hruns₀.header hd₀ (by rw [heng₀]) (hissue.canAsk hask)
    (hxport.trans hans) (by rw [hcfg]; omega)
  rw [heng₀] at heng
  exact ⟨t₀, t, hexec, hissue, hex, hruns, hd, by rw [hregs, hregs₀], by rw [heng], by rw [heng]; rfl,
    fun a => by rw [hbuf, Memory.read_write, hbuf₀]⟩

/-- Settles O29: the run up to the length field, which for READ_PACKET is the header byte's, and then four bytes that
all continue. -/
theorem malformedLengthEndsTheCommand : Obligations.MalformedLengthEndsTheCommand := by
  constructor
  · intro s bs more hready hlen hbs hans hask
    obtain ⟨t₀, hexec, hissue, hruns₀, hd₀, hregs₀, hphase₀, hi₀, -⟩ := lenDecode_issued hready
    obtain ⟨-, hbuf₀, -, hxport, -, -⟩ := hissue.outside
    obtain ⟨t, hex, hregs, hidle, hbuf⟩ := hruns₀.lengthField_malformed hd₀ (.inl hphase₀) (by rw [hregs₀]) hi₀ hbs hlen
      (hissue.canAsk hask) (hxport.trans hans)
    obtain ⟨k, hrun⟩ := hex.runs
    exact ⟨t₀, k, t, hexec, hrun, by rw [hregs, hregs₀], fun a => by rw [hbuf, hbuf₀], hidle,
      hex.answers_left (hxport.trans hans), (hex.of_issue hissue).2⟩
  · intro s h bs more hready hlen hbs hans hask hcap hfit
    obtain ⟨t₀, t₁, hexec, hissue, hex₁, hruns₁, hd₁, hregs₁, hphase₁, hi₁, hbuf₁⟩ :=
      readPacket_takesHeader hready hcap hfit hans fun hl => le_trans (by decide) (hask hl)
    obtain ⟨-, -, -, hxport, -, -⟩ := hissue.outside
    obtain ⟨t, hex₂, hregs, hidle, hbuf⟩ := hruns₁.lengthField_malformed hd₁ (.inr hphase₁) (by rw [hregs₁]; rfl) hi₁
      hbs hlen (hex₁.canAsk (hissue.canAsk hask)) (hex₁.answers_left (hxport.trans hans))
    have hall := hex₁.trans hex₂
    obtain ⟨k, hrun⟩ := hall.runs
    refine ⟨t₀, k, t, hexec, hrun, ?_, fun a => by rw [hbuf, hbuf₁], hidle, hall.answers_left (hxport.trans hans),
      (hall.of_issue hissue).2⟩
    rw [hregs, hregs₁, Hdr.ofByte, hdrType_eq_extractLsb', hdrFlags]
    rfl

end Sys2Proof.Machine
end

section
/-! The registers while no command runs (O53): the idle Engine, the agents' answers and the Host's other accesses leave
them, so that they change at a host register write or at reset alone. -/

namespace Sys2Proof.Machine

/-- Of the Host's accesses only a register write can change a register (20_memory.md R65, 10_state.md R22). -/
theorem hostStep_regs {a : HostAccess} {s t : State} (h : hostStep a s = .next t) :
    t.regs = s.regs ∨ ∃ off w, a = .regWrite off 4 w := by
  obtain ⟨off, -, -, rfl⟩ | ⟨off, w, hwrite, -, -⟩ | ⟨-, x, -, hr⟩ | ⟨-, x, b, -, hw⟩ := hostStep_cases h
  · exact .inl rfl
  · exact .inr ⟨off, w, hwrite⟩
  · exact .inl (bufRead_regs hr)
  · exact .inl (bufWrite_regs hw)

/-- The Engine's step writes no register while no command runs (60_exceptions.md R220). -/
theorem engineStep_regs_of_idle {s t : State} (hp : s.eng.phase = .idle) (h : engineStep s = .next t) :
    t.regs = s.regs := by
  rw [engineStep_of_idle hp] at h
  cases h
  rfl

/-- While no command runs a turn leaves the registers, is a host register write, or is reset (R211). -/
theorem turnStep_regs_of_idle {a : Turn} {s t : State} (hp : s.eng.phase = .idle) (h : turnStep a s = .next t) :
    t.regs = s.regs ∨ (∃ off w, a = .host (.regWrite off 4 w)) ∨ a = .reset := by
  cases a with
  | host a =>
    obtain hsame | ⟨off, w, rfl⟩ := hostStep_regs h
    · exact .inl hsame
    · exact .inr (.inl ⟨off, w, rfl⟩)
  | engine => exact .inl (engineStep_regs_of_idle hp h)
  | transport => exact .inl (transportStep_regs h)
  | deadlineSource => exact .inl (deadlineStep_regs h)
  | reset => exact .inr (.inr rfl)

/-- With no turn given and no command running, the registers are left. -/
theorem defaultStep_regs_of_idle {s t : State} (hp : s.eng.phase = .idle) (h : defaultStep s = .next t) :
    t.regs = s.regs := by
  unfold defaultStep at h
  split at h
  case h_1 => exact engineStep_regs_of_idle hp h
  case h_2 => exact deadlineStep_regs h
  case h_3 => exact transportStep_regs h

/-- Settles O53: BUSY = 0 means IDLE by the invariant, and there no turn but the two excluded ones writes a register. -/
theorem resultsPersistWhileIdle : Obligations.ResultsPersistWhileIdle := by
  intro s t hinv hb hreset hwrite hstep
  obtain ⟨hp, -, -⟩ := idle_of_not_busy hinv hb
  cases hturns : s.turns with
  | nil => exact defaultStep_regs_of_idle hp (step_default hturns ▸ hstep)
  | cons a rest =>
    obtain hsame | ⟨off, w, rfl⟩ | rfl :=
      turnStep_regs_of_idle (s := { s with turns := rest }) hp (step_turn hturns ▸ hstep)
    · exact hsame
    · exact absurd hturns (hwrite off 4 w rest)
    · exact absurd hturns (hreset rest)

end Sys2Proof.Machine
end

section
/-! Reset (O40, O42): it clears the registers and the Engine and leaves BUF, and the answers that come once nothing is
waited for are discarded (70_reset_and_hazards.md R230, R231). -/

namespace Sys2Proof.Machine

/-- The turn of the reset input is the reset step (R230). -/
theorem step_reset {s : State} {rest : List Turn} (h : s.turns = .reset :: rest) :
    step s = .next (resetStep { s with turns := rest }) :=
  step_turn h

/-- With no request in flight the Transport's answer is discarded (R231). -/
theorem transportStep_discards {s : State} {ans : Answer} {more : List Answer} (hw : s.eng.wait = .none)
    (hans : s.xportAnswers = ans :: more) : transportStep s = .next { s with xportAnswers := more } := by
  have hnot : s.eng.wait ≠ .xport := by simp [hw]
  simp only [transportStep, hans, if_neg hnot]

/-- With no query in flight the DeadlineSource's answer is discarded (R231). -/
theorem deadlineStep_discards {s : State} {ms : Word} {more : List Word} (hw : s.eng.wait = .none)
    (hans : s.deadlineAnswers = ms :: more) : deadlineStep s = .next { s with deadlineAnswers := more } := by
  have hnot : s.eng.wait ≠ .timer := by simp [hw]
  simp only [deadlineStep, hans, if_neg hnot]

/-- Settles O40: the reset Engine waits for nothing, and what an agent answers while nothing is waited for is discarded. -/
theorem strayAnswersAreDiscarded : Obligations.StrayAnswersAreDiscarded := by
  refine ⟨fun s rest hturns => ⟨_, step_reset hturns, rfl⟩, ?_, ?_⟩
  · intro s ans more rest hturns hw hans
    exact (step_turn hturns).trans (transportStep_discards (s := { s with turns := rest }) hw hans)
  · intro s ms more rest hturns hw hans
    exact (step_turn hturns).trans (deadlineStep_discards (s := { s with turns := rest }) hw hans)

/-- Every register reads 0 after reset, reserved bits included (10_state.md R44). -/
@[simp] theorem Regs.read_reset (x : Reg) : Regs.reset.read x = 0 := by
  cases x <;> rfl

/-- Every offset reads 0 after reset, the unused ones too (R22, R44). -/
@[simp] theorem Regs.readAt_reset (off : BitVec 8) : Regs.reset.readAt off = 0 := by
  cases hx : Reg.ofOffset off with
  | none => exact Regs.readAt_of_none _ hx
  | some x =>
    obtain rfl := Reg.ofOffset_eq_some.1 hx
    rw [Regs.readAt_offset, Regs.read_reset]

/-- Settles O42: every register of the reset file reads 0, and the rest is what the reset step writes and leaves. -/
theorem resetClearsAllButBuf : Obligations.ResetClearsAllButBuf := by
  intro s rest hturns
  exact ⟨_, step_reset hturns, Regs.readAt_reset, rfl, rfl, rfl, rfl, rfl, rfl, fun _ => rfl, rfl⟩

end Sys2Proof.Machine
end
